-- ==== Sys2Proof/Word.lean ====
section
/-! DEFINITION. The word types of the block: the stream unit is the byte, the raster dimensions are the only
16-bit values, the raster counters are 32 bits wide (00_scope.md R6, 10_state.md R28). -/

namespace Sys2Proof

/-- "an 8-bit unsigned value", the unit of the stream (R6). -/
abbrev Byte := BitVec 8

/-- The raster width and height, the only 16-bit values (R6). -/
abbrev Half := BitVec 16

/-- The raster byte counter and index (`CNT_WIDTH` = 32, R7, R28). -/
abbrev Count := BitVec 32

end Sys2Proof
end

