-- ==== Sys2Proof/Config.lean ====
section
/-! DEFINITION. What is fixed for every session (10_state.md R40) and the one parameter the spec leaves open. -/

namespace Sys2Proof.Config

/-- `ACK[0..4]`, the fixed acknowledgement (20_memory.md R75). -/
def ack : List Byte := [0x14, 0x00, 0x00, 0x00, 0xFF]

/-- `RB_CAPACITY`, the number of raster buffer cells: every legal width times height (00_scope.md R7). -/
def rbCapacity : Nat := 4294836225

/-- `CHARSET_NAME[0..13]`: the spec does not list the names (R7, R75, decision D10), so this is a free value with
no body. Log 7. -/
opaque charsetName : Fin 14 → String

/-- `RESERVED_LABEL` (R7, decision D9): the symbol for a character-set index of 14 or more. -/
def reservedLabel : String := "RESERVED"

end Sys2Proof.Config
end

