-- ==== Sys2Proof/Syntax.lean ====
section
/-! DEFINITION. The commands, one constructor per row of opcode_table.json (30_encoding.md R96), the eleven table
opcodes (R100) and the reasons for which a byte string is not yet a command. -/

namespace Sys2Proof

/-- A command with its field values; R96 gives the operands in this order. -/
inductive Instr where
  /-- `00` (R131) -/
  | idle
  /-- `1E` (R132) -/
  | buzz
  /-- `1B21 n` (R141) -/
  | pmode (n : Byte)
  /-- `1B40` (R142) -/
  | init
  /-- `1B4A n` (R143) -/
  | feed (n : Byte)
  /-- `1B52 n` (R144, R145) -/
  | charset (n : Byte)
  /-- `1D42 n` (R146) -/
  | reverse (n : Byte)
  /-- `1B63 a b` (R147) -/
  | skip2 (a b : Byte)
  /-- `1B74 n` (R148) -/
  | codepage (n : Byte)
  /-- `1D50 x y` (R149) -/
  | units (x y : Byte)
  /-- `1D56 m`, m in {0, 1, 49} (R166) -/
  | cut (m : Byte)
  /-- `1D56 m n`, m not in {0, 1, 49} (R167) -/
  | cutf (m n : Byte)
  /-- `1D61 n` (R175) -/
  | status (n : Byte)
  /-- `1D76 k mode WL WH HL HH data`, `W*H` data bytes (R185) -/
  | raster (k mode : Byte) (w h : Half) (data : List Byte)
  /-- any other pair (R211) -/
  | unk (b0 b1 : Byte)
deriving DecidableEq, Repr

/-- The eleven two-byte table opcodes (R100), named after their rows; `1D56` is `cut`, whichever form follows. -/
inductive Opcode where
  | pmode | init | feed | charset | reverse | skip2 | codepage | units | cut | status | raster
deriving DecidableEq, Repr

/-- Why a byte string does not begin with a complete command. No encoding is illegal (R107): every reason is that a
byte of the command has not come yet. -/
inductive DecodeReject where
  /-- no first opcode byte -/
  | noFirstByte
  /-- a first opcode byte other than `00` and `1E`, and no second one (R98) -/
  | noSecondByte
  /-- the payload of this opcode is not complete (R101, R105) -/
  | payloadShort (op : Opcode)
deriving DecidableEq, Repr

end Sys2Proof
end

