-- ==== Sys2Proof/Machine/State.lean ====
section
/-! DEFINITION. The state of one session (10_state.md R20) as plain data, its value after reset (R39), and the reasons
a step of the model can stop. -/

namespace Sys2Proof.Machine

/-- The decoder's control state (R23). -/
inductive Phase where
  | op0 | op1 | payload | rdata | halt
deriving DecidableEq, Repr

/-- The label of a `SelectCharset` event (00_scope.md R13): `Name(i)`, kept as the index `i` because the names are an
open parameter (R144, log 7), or `RESERVED` (R145). -/
inductive Label where
  | name (i : Fin 14)
  | reserved
deriving DecidableEq, Repr

/-- The event records of R13, a closed list; a one-bit field is a `Bool`. -/
inductive Event where
  | buzzer
  | printMode (n : Byte) (fontSel emphasized doubleHeight doubleWidth underline : Bool)
  | resetPrinter
  | feedPaper (n : Byte)
  | selectCharset (n : Byte) (label : Label)
  | reverseMode (on : Bool)
  | codePage (n : Byte)
  | motionUnits (x y : Byte)
  | partialCut (m : Byte)
  | feedAndCut (m n : Byte)
  | statusEnable (n : Byte) (drawer online error paper : Bool)
  | image (marker mode : Byte) (w h : Half) (data : List Byte)
deriving DecidableEq, Repr

/-- The moves of the agents of one session (R11): the producer's `push` and `close`, and the decoder's step. -/
inductive Move where
  | push (b : Byte)
  | close
  | decode
deriving DecidableEq, Repr

/-- The conditions of 60_exceptions.md R220. -/
inductive Condition where
  | starvation
  | unknownOpcode
  | outOfRangeIndex (n : Byte)
  | endOfStream
deriving DecidableEq, Repr

/-- The raster buffer: the written cells as (index, byte), indices strictly rising; a cell not listed was never
written and has no value (R39, U11, log 5). -/
abbrev Memory := List Host.Cell

/-- One session's state: the elements of R20 under their own names, and the model's `turns` (log 2). -/
structure State where
  /-- `BUF`: bytes pushed and not yet consumed, oldest first (R36) -/
  buf : List Byte
  /-- `WAIT`: whether a `next_byte()` request is unresolved (R36) -/
  wait : Bool
  /-- `CLOSED` (R30) -/
  closed : Bool
  /-- `PHASE` (R23) -/
  phase : Phase
  /-- `B0` (R24) -/
  b0 : Byte
  /-- `B1` (R24) -/
  b1 : Byte
  /-- `F[0..5]` (R25) -/
  f : Vector Byte 6
  /-- `NF`, 0 to 6 (R25) -/
  nf : Fin 7
  /-- `CNT` (R28) -/
  cnt : Count
  /-- `IDX` (R28) -/
  idx : Count
  /-- `RB` (R29) -/
  rb : Memory
  /-- `HALTED` (R31) -/
  halted : Bool
  /-- `UNKSEEN` (R33) -/
  unkSeen : Bool
  /-- `POS` (R21) -/
  pos : Nat
  /-- `EV` (R37) -/
  ev : List Event
  /-- `TX` (R37) -/
  tx : List Byte
  /-- the model's own: the agents' moves whose turns come next; when none is left every turn is the decoder's
  (R11, R282, log 2) -/
  turns : List Move
deriving DecidableEq, Repr

/-- Why a step stops. The spec has no trap (R107): each of these is met only in a state that no run reaches, and
stopping there is safe. -/
inductive Fault where
  /-- raised by the step that forms an `Image` when a cell of `RB[0..W*H-1]` was never written (R42, U11); safe -/
  | unwrittenRasterByte
  /-- raised by a raster data byte with `IDX` at or beyond `RB_CAPACITY`, a cell that does not exist (R66); safe -/
  | rasterIndexOutOfRange
  /-- raised by a raster data byte with `CNT = 0`, which R28 excludes; safe -/
  | countUnderflow
  /-- raised by a seventh field byte: there is no `F[6]` (R25); safe -/
  | fieldOverflow
  /-- raised by a byte consumed in `PHASE = HALT` with `HALTED = 0`, which R31 excludes and for which R110 defines
  nothing; safe -/
  | deltaInHalt
deriving DecidableEq, Repr

/-- Why the model gives an instruction no meaning. -/
inductive Refusal where
  /-- an instruction whose arm in `exec` has no meaning yet, by its mnemonic; safe -/
  | notModelled (mnemonic : String)
deriving DecidableEq, Repr

/-- The three outcomes of a step of this machine. -/
abbrev Result := Host.Outcome State Fault Refusal

/-- Session start (70_reset_and_hazards.md R260), with the values of R39; R39 gives `B0`, `B1`, `F`, `NF`, `CNT` and
`IDX` no value and the model resets them to zero (DESIGN CHOICE, unsafe, log 4). -/
def State.reset : State where
  buf := []
  wait := false
  closed := false
  phase := .op0
  b0 := 0
  b1 := 0
  f := Vector.replicate 6 0
  nf := 0
  cnt := 0
  idx := 0
  rb := []
  halted := false
  unkSeen := false
  pos := 0
  ev := []
  tx := []
  turns := []

end Sys2Proof.Machine
end

