-- ==== Sys2Proof/Machine/Ops.lean ====
section
/-! DEFINITION. The named operations over the session's memories, queue and latches: the raster buffer, the byte
queue, the operand latches, the outputs, and the one shared operation that raises a condition. -/

namespace Sys2Proof.Machine

/-! ### RB, the raster buffer (20_memory.md R66 to R70) -/

/-- The canonical form: indices strictly rising. -/
def Memory.wf (m : Memory) : Bool :=
  match m with
  | [] => true
  | [_] => true
  | (a, _) :: (b, v) :: rest => decide (a < b) && Memory.wf ((b, v) :: rest)

/-- The byte at an index, `none` where nothing was written. -/
def Memory.read (m : Memory) (i : Nat) : Option Byte :=
  match m with
  | [] => none
  | (a, v) :: rest => if a = i then some v else Memory.read rest i

/-- `MemWrite(RB, i, 1, v)` (R68). -/
def Memory.write (m : Memory) (i : Nat) (v : Byte) : Memory :=
  match m with
  | [] => [(i, v)]
  | (a, w) :: rest =>
    if i < a then (i, v) :: (a, w) :: rest
    else if i = a then (i, v) :: rest
    else (a, w) :: Memory.write rest i v

/-- `m[i], ..., m[i + n - 1]`, `none` if one of them was never written; `RB[0..W*H-1]` of R69. -/
def Memory.readRange (m : Memory) (i n : Nat) : Option (List Byte) :=
  match n with
  | 0 => some []
  | n + 1 =>
    match Memory.read m i, Memory.readRange m (i + 1) n with
    | some v, some vs => some (v :: vs)
    | _, _ => none

/-! ### The byte queue (20_memory.md R54 to R63) -/

/-- `push(b)`: appended while the stream is open, an outstanding request is resolved (R54, R55, in the step view of
R64); dropped after `close` (R56). -/
def push (b : Byte) (s : State) : State :=
  if s.closed then s else { s with buf := s.buf ++ [b], wait := false }

/-- `close`: nothing is removed from `BUF`, an outstanding request is resolved; a second `close` does nothing (R61,
R63). -/
def close (s : State) : State :=
  if s.closed then s else { s with closed := true, wait := false }

/-- The results of `next_byte()` (R57): `Byte(b)` with the state after the read, `EOS`, or suspension. -/
inductive NextByte where
  | byte (b : Byte) (s : State)
  | eos
  | suspend
deriving DecidableEq, Repr

/-- `next_byte()`, the only read of RX (R57). -/
def nextByte (s : State) : NextByte :=
  match s.buf with
  | b :: rest => .byte b { s with buf := rest, pos := s.pos + 1 }
  | [] => if s.closed then .eos else .suspend

/-- `STARVED`, derived (10_state.md R32). -/
def starved (s : State) : Bool := !s.halted && s.buf.isEmpty && !s.closed

/-! ### The outputs (20_memory.md R72, R74) -/

/-- `emit E(...)`: append to EV. -/
def emit (e : Event) (s : State) : State := { s with ev := s.ev ++ [e] }

/-- `TxWrite(b0 b1 ...)`: append to TX. -/
def txWrite (bs : List Byte) (s : State) : State := { s with tx := s.tx ++ bs }

/-! ### The operand latches (10_state.md R24, R25, R28) -/

/-- `B0 <- b`. -/
def latchFirst (b : Byte) (s : State) : State := { s with b0 := b }

/-- `B1 <- b; NF <- 0`. -/
def latchSecond (b : Byte) (s : State) : State := { s with b1 := b, nf := 0 }

/-- `F[NF] <- b; NF <- NF + 1`; there is no `F[6]`, and the caller stops there. -/
def latchField (b : Byte) (s : State) : State :=
  if h : s.nf.val < 6 then { s with f := s.f.set s.nf.val b h, nf := ⟨s.nf.val + 1, by omega⟩ } else s

/-- `RB[IDX] <- b; IDX <- IDX + 1; CNT <- CNT - 1`. -/
def latchRaster (b : Byte) (s : State) : State :=
  { s with rb := s.rb.write s.idx.toNat b, idx := s.idx + 1, cnt := s.cnt - 1 }

/-- `PHASE <- p` while a command is incomplete. -/
def await (p : Phase) (s : State) : State := { s with phase := p }

/-- After a command's handler `PHASE = OP0` (40_single_byte.md R130). -/
def retire (s : State) : State := { s with phase := .op0 }

/-! ### Conditions (60_exceptions.md R220)

The block's nearest thing to taking an exception. Nothing is saved and control goes nowhere (R232), and there is no
return (R233). -/

/-- `raise X`. -/
def raise (c : Condition) (s : State) : State :=
  match c with
  | .starvation => { s with wait := true }
  | .unknownOpcode => { s with unkSeen := true }
  | .outOfRangeIndex n => emit (.selectCharset n .reserved) s
  | .endOfStream => { s with halted := true, phase := .halt }

end Sys2Proof.Machine
end

