-- ==== Sys2Proof/Machine/Cut.lean ====
section
/-! DEFINITION. The cut command `1D56` (42_cut.md). -/

namespace Sys2Proof.Machine

/-- `CUT m`, the short form (R166). -/
def execCut (m : Byte) (s : State) : Result := .next (retire (emit (.partialCut m) s))

/-- `CUTF m n`, the long form (R167). -/
def execCutf (m n : Byte) (s : State) : Result := .next (retire (emit (.feedAndCut m n) s))

end Sys2Proof.Machine
end

