-- ==== Sys2Proof/Machine/Flags.lean ====
section
/-! DEFINITION. Flag extraction from field bytes (30_encoding.md R106). There are no condition codes (10_state.md
R34): every flag is a field of an event. -/

namespace Sys2Proof.Machine

/-- `b[k] = (b div 2^k) mod 2` (00_scope.md R8). -/
def bit (b : Byte) (k : Nat) : Bool := b.toNat / 2 ^ k % 2 == 1

/-- The event of `PMODE n`: bits 0, 3, 4, 5 and 7 (41_fixed_payload.md R141). -/
def printModeOf (n : Byte) : Event := .printMode n (bit n 0) (bit n 3) (bit n 4) (bit n 5) (bit n 7)

/-- The event of `STATUS n`: bits 0 to 3 (43_status_reply.md R176). -/
def statusEnableOf (n : Byte) : Event := .statusEnable n (bit n 0) (bit n 1) (bit n 2) (bit n 3)

/-- `on = (n != 0)`, on the whole byte (41_fixed_payload.md R146). -/
def isOn (n : Byte) : Bool := n != 0

/-- In range iff `n <= 13`: the label of a character-set index, `none` out of range (41_fixed_payload.md R144, R145). -/
def charsetLabel (n : Byte) : Option Label :=
  if h : n.toNat < 14 then some (.name ⟨n.toNat, h⟩) else none

/-- What a label stands for: an entry of `CHARSET_NAME`, or the reserved label (20_memory.md R75, R145, log 7). -/
def labelText (l : Label) : String :=
  match l with
  | .name i => Config.charsetName i
  | .reserved => Config.reservedLabel

end Sys2Proof.Machine
end

