-- ==== Sys2Proof/Machine/FixedPayload.lean ====
section
/-! DEFINITION. The two-byte-opcode commands with a fixed payload (41_fixed_payload.md). -/

namespace Sys2Proof.Machine

/-- `PMODE n` (R141). -/
def execPmode (n : Byte) (s : State) : Result := .next (retire (emit (printModeOf n) s))

/-- `INIT`: only the event, nothing is reset (R142). -/
def execInit (s : State) : Result := .next (retire (emit .resetPrinter s))

/-- `FEED n` (R143). -/
def execFeed (n : Byte) (s : State) : Result := .next (retire (emit (.feedPaper n) s))

/-- `CHARSET n`: in range the name's index (R144), otherwise the condition `OutOfRangeIndex` (R145, R224). -/
def execCharset (n : Byte) (s : State) : Result :=
  match charsetLabel n with
  | some l => .next (retire (emit (.selectCharset n l) s))
  | none => .next (retire (raise (.outOfRangeIndex n) s))

/-- `REVERSE n` (R146). -/
def execReverse (n : Byte) (s : State) : Result := .next (retire (emit (.reverseMode (isOn n)) s))

/-- `SKIP2 a b`: both bytes are discarded (R147). -/
def execSkip2 (_a _b : Byte) (s : State) : Result := .next (retire s)

/-- `CODEPAGE n` (R148). -/
def execCodepage (n : Byte) (s : State) : Result := .next (retire (emit (.codePage n) s))

/-- `UNITS x y` (R149). -/
def execUnits (x y : Byte) (s : State) : Result := .next (retire (emit (.motionUnits x y) s))

end Sys2Proof.Machine
end

