-- ==== Sys2Proof/Machine/Raster.lean ====
section
/-! DEFINITION. The raster command `1D76` (44_raster.md). -/

namespace Sys2Proof.Machine

/-- `RASTER k mode W H data`: the `Image` event, with marker and mode passed on unexamined (R187, R188, R194). -/
def execRaster (k mode : Byte) (w h : Half) (data : List Byte) (s : State) : Result :=
  .next (retire (emit (.image k mode w h data) s))

end Sys2Proof.Machine
end

