-- ==== Sys2Proof/Machine/SingleByte.lean ====
section
/-! DEFINITION. The single-byte commands (40_single_byte.md). A handler runs in the step that consumes the command's
last byte and leaves `PHASE = OP0` (R130). -/

namespace Sys2Proof.Machine

/-- `IDLE`: no effect (R131). -/
def execIdle (s : State) : Result := .next (retire s)

/-- `BUZZ` (R132). -/
def execBuzz (s : State) : Result := .next (retire (emit .buzzer s))

end Sys2Proof.Machine
end

