-- ==== Sys2Proof/Machine/StatusReply.lean ====
section
/-! DEFINITION. The status command `1D61` and its acknowledgement (43_status_reply.md). -/

namespace Sys2Proof.Machine

/-- `STATUS n`: the event (R176), then the five bytes of `ACK` (R177), in one step (R178). -/
def execStatus (n : Byte) (s : State) : Result :=
  .next (retire (txWrite Config.ack (emit (statusEnableOf n) s)))

end Sys2Proof.Machine
end

