-- ==== Sys2Proof/Machine/Unknown.lean ====
section
/-! DEFINITION. The unknown two-byte opcodes (45_unknown_opcode.md). -/

namespace Sys2Proof.Machine

/-- `UNK b0 b1`: `UNKSEEN <- 1` and nothing else; no payload is consumed (R211, R223). -/
def execUnk (_b0 _b1 : Byte) (s : State) : Result := .next (retire (raise .unknownOpcode s))

end Sys2Proof.Machine
end

