-- ==== Sys2Proof/Machine/Dispatch.lean ====
section
/-! DEFINITION. The handler of every command (30_encoding.md R110: `handler(OPC)`), one arm per constructor. -/

namespace Sys2Proof.Machine

/-- What a command's handler does, in the step that consumes its last byte (R110, R130). -/
def exec (i : Instr) (s : State) : Host.Outcome State Fault Refusal :=
  match i with
  | .idle => Sys2Proof.Machine.execIdle s
  | .buzz => Sys2Proof.Machine.execBuzz s
  | .pmode n => Sys2Proof.Machine.execPmode n s
  | .init => Sys2Proof.Machine.execInit s
  | .feed n => Sys2Proof.Machine.execFeed n s
  | .charset n => Sys2Proof.Machine.execCharset n s
  | .reverse n => Sys2Proof.Machine.execReverse n s
  | .skip2 a b => Sys2Proof.Machine.execSkip2 a b s
  | .codepage n => Sys2Proof.Machine.execCodepage n s
  | .units x y => Sys2Proof.Machine.execUnits x y s
  | .cut m => Sys2Proof.Machine.execCut m s
  | .cutf m n => Sys2Proof.Machine.execCutf m n s
  | .status n => Sys2Proof.Machine.execStatus n s
  | .raster k mode w h data => Sys2Proof.Machine.execRaster k mode w h data s
  | .unk b0 b1 => Sys2Proof.Machine.execUnk b0 b1 s

end Sys2Proof.Machine
end

