-- ==== Sys2Proof/Decode.lean ====
section
/-! DEFINITION. Decoding of byte strings, written from the format tables of 30_encoding.md R90 to R101, and after it
the encoder, written from the same tables. -/

namespace Sys2Proof

/-! ### Field assembly (R103, R104) -/

/-- `u16(lo, hi) = lo + hi*256` (00_scope.md R9, R104). -/
def u16 (lo hi : Byte) : Half := BitVec.ofNat 16 (lo.toNat + hi.toNat * 256)

/-- Bits 7:0 of a 16-bit field, sent first (R97). -/
def lowByte (v : Half) : Byte := BitVec.ofNat 8 (v.toNat % 256)

/-- Bits 15:8 of a 16-bit field, sent second (R97). -/
def highByte (v : Half) : Byte := BitVec.ofNat 8 (v.toNat / 256)

/-- `N = W * H`, the number of packed bytes, computed without wrap-around (R105). -/
def rasterBytes (w h : Half) : Nat := w.toNat * h.toNat

/-! ### Opcode and length -/

/-- The single-byte commands: first bytes that open no two-byte opcode (R98). -/
def isSingleByte (b : Byte) : Bool := b == 0x00 || b == 0x1E

/-- The lookup of the opcode pair, on both bytes exactly; `none` is an unknown opcode (R100). -/
def lookup (b0 b1 : Byte) : Option Opcode :=
  if b0 = 0x1B then
    if b1 = 0x21 then some .pmode
    else if b1 = 0x40 then some .init
    else if b1 = 0x4A then some .feed
    else if b1 = 0x52 then some .charset
    else if b1 = 0x63 then some .skip2
    else if b1 = 0x74 then some .codepage
    else none
  else if b0 = 0x1D then
    if b1 = 0x42 then some .reverse
    else if b1 = 0x50 then some .units
    else if b1 = 0x56 then some .cut
    else if b1 = 0x61 then some .status
    else if b1 = 0x76 then some .raster
    else none
  else none

/-- Membership of the whole byte `m` in `{0, 1, 49}`: `1D56` takes its short form (42_cut.md R165). -/
def isShortCut (m : Byte) : Bool := m == 0 || m == 1 || m == 49

/-- `need(OPC, F)`: how many field bytes the command takes; `f0` is `F[0]`, read for `1D56` only (R101). -/
def need (op : Opcode) (f0 : Byte) : Nat :=
  match op with
  | .init => 0
  | .pmode | .feed | .charset | .reverse | .codepage | .status => 1
  | .skip2 | .units => 2
  | .cut => if isShortCut f0 then 1 else 2
  | .raster => 6

/-- Total length `L` of the command that a byte string of at least eight bytes begins with (R101, R102). -/
def commandLength (bs : List Byte) : Nat :=
  if isSingleByte (bs.getD 0 0) then 1
  else match lookup (bs.getD 0 0) (bs.getD 1 0) with
    | none => 2
    | some .raster => 8 + rasterBytes (u16 (bs.getD 4 0) (bs.getD 5 0)) (u16 (bs.getD 6 0) (bs.getD 7 0))
    | some op => 2 + need op (bs.getD 2 0)

/-! ### The decoder of byte strings -/

/-- The payload of a table opcode, in the layout of R93 to R95 and R97, and the bytes after it. -/
def decodePayload (op : Opcode) (bs : List Byte) : Except DecodeReject (Instr × List Byte) :=
  match op, bs with
  | .init, r => .ok (.init, r)
  | .pmode, n :: r => .ok (.pmode n, r)
  | .feed, n :: r => .ok (.feed n, r)
  | .charset, n :: r => .ok (.charset n, r)
  | .reverse, n :: r => .ok (.reverse n, r)
  | .codepage, n :: r => .ok (.codepage n, r)
  | .status, n :: r => .ok (.status n, r)
  | .skip2, a :: b :: r => .ok (.skip2 a b, r)
  | .units, x :: y :: r => .ok (.units x y, r)
  | .cut, m :: r =>
    if isShortCut m then .ok (.cut m, r)
    else match r with
      | n :: r => .ok (.cutf m n, r)
      | [] => .error (.payloadShort .cut)
  | .raster, k :: mode :: wl :: wh :: hl :: hh :: r =>
    let n := rasterBytes (u16 wl wh) (u16 hl hh)
    if r.length < n then .error (.payloadShort .raster)
    else .ok (.raster k mode (u16 wl wh) (u16 hl hh) (r.take n), r.drop n)
  | op, _ => .error (.payloadShort op)

/-- The command a byte string begins with, and the bytes after it (R98 to R101). Total: any string either begins
with a complete command or is rejected for the byte that is missing. -/
def decode (bs : List Byte) : Except DecodeReject (Instr × List Byte) :=
  match bs with
  | [] => .error .noFirstByte
  | b0 :: r =>
    if b0 = 0x00 then .ok (.idle, r)
    else if b0 = 0x1E then .ok (.buzz, r)
    else match r with
      | [] => .error .noSecondByte
      | b1 :: r =>
        match lookup b0 b1 with
        | none => .ok (.unk b0 b1, r)
        | some op => decodePayload op r

/-- The commands a byte string retires, at most `n` of them, and the bytes after the last one (R113). -/
def decodeCommands (n : Nat) (bs : List Byte) : List Instr × List Byte :=
  match n with
  | 0 => ([], bs)
  | n + 1 =>
    match decode bs with
    | .ok (i, r) => (i :: (decodeCommands n r).1, (decodeCommands n r).2)
    | .error _ => ([], bs)

/-- All the commands `parse(bs)` retires (R113); each has a byte at least, so there are no more than bytes. -/
def retired (bs : List Byte) : List Instr := (decodeCommands bs.length bs).1

/-- The bytes of the command that `bs` leaves incomplete: the residual of `parse(bs)` (R113). -/
def residual (bs : List Byte) : List Byte := (decodeCommands bs.length bs).2

/-! ### The encoder (R91 to R97, R115) -/

/-- The bytes of a command in stream order. -/
def encode (i : Instr) : List Byte :=
  match i with
  | .idle => [0x00]
  | .buzz => [0x1E]
  | .pmode n => [0x1B, 0x21, n]
  | .init => [0x1B, 0x40]
  | .feed n => [0x1B, 0x4A, n]
  | .charset n => [0x1B, 0x52, n]
  | .reverse n => [0x1D, 0x42, n]
  | .skip2 a b => [0x1B, 0x63, a, b]
  | .codepage n => [0x1B, 0x74, n]
  | .units x y => [0x1D, 0x50, x, y]
  | .cut m => [0x1D, 0x56, m]
  | .cutf m n => [0x1D, 0x56, m, n]
  | .status n => [0x1D, 0x61, n]
  | .raster k mode w h data =>
    [0x1D, 0x76, k, mode, lowByte w, highByte w, lowByte h, highByte h] ++ data
  | .unk b0 b1 => [b0, b1]

/-- The total length `L` of each command (R116). -/
def commandBytesCount (i : Instr) : Nat :=
  match i with
  | .idle | .buzz => 1
  | .init | .unk _ _ => 2
  | .pmode _ | .feed _ | .charset _ | .reverse _ | .codepage _ | .status _ | .cut _ => 3
  | .skip2 _ _ | .units _ _ | .cutf _ _ => 4
  | .raster _ _ w h _ => 8 + rasterBytes w h

/-! ### Words numbered as opcode_table.json numbers them (R117) -/

/-- The bytes after a 16-bit opcode word, least significant first. -/
def laterBytes (k w : Nat) : List Byte :=
  match k with
  | 0 => []
  | k + 1 => BitVec.ofNat 8 w :: laterBytes k (w / 256)

/-- The stream bytes of a table word: an 8-bit row is the command's byte 0; in a 16-bit row byte 0 is the more
significant byte (R117); bits above 15 are later bytes, one by one. Log 16. -/
def tableBytes (nbits w : Nat) : List Byte :=
  if nbits ≤ 8 then [BitVec.ofNat 8 w]
  else BitVec.ofNat 8 (w / 256) :: BitVec.ofNat 8 w :: laterBytes ((nbits - 16) / 8) (w / 65536)

/-- The table word's bytes followed by as many zero bytes as its command still needs. -/
def tableStream (nbits w : Nat) : List Byte :=
  let bs := tableBytes nbits w
  bs ++ List.replicate (commandLength (bs ++ List.replicate 8 0) - bs.length) 0

/-- What the decoder reads from a table word whose further bits are zero. -/
def decodeTableWord (nbits w : Nat) : Option Instr :=
  match decode (tableStream nbits w) with
  | .ok (i, _) => some i
  | .error _ => none

end Sys2Proof
end

