-- ==== Sys2Proof/Machine/Operands.lean ====
section
/-! DEFINITION. The operands of the current command, read from the latches (10_state.md R24 to R28). -/

namespace Sys2Proof.Machine

/-- `W = F[2] + F[3]*256` (10_state.md R27). -/
def width (s : State) : Half := u16 s.f[2] s.f[3]

/-- `H = F[4] + F[5]*256` (10_state.md R27). -/
def height (s : State) : Half := u16 s.f[4] s.f[5]

/-- The opcode in `B0`, `B1`; `none` is an unknown opcode (30_encoding.md R100). -/
def opcode (s : State) : Option Opcode := lookup s.b0 s.b1

/-- The command of a table opcode with its operands from `F` in the order of 10_state.md R26; `data` is
`RB[0..W*H-1]` for `1D76` and empty otherwise. -/
def operands (op : Opcode) (data : List Byte) (s : State) : Instr :=
  match op with
  | .pmode => .pmode s.f[0]
  | .init => .init
  | .feed => .feed s.f[0]
  | .charset => .charset s.f[0]
  | .reverse => .reverse s.f[0]
  | .skip2 => .skip2 s.f[0] s.f[1]
  | .codepage => .codepage s.f[0]
  | .units => .units s.f[0] s.f[1]
  | .cut => if isShortCut s.f[0] then .cut s.f[0] else .cutf s.f[0] s.f[1]
  | .status => .status s.f[0]
  | .raster => .raster s.f[0] s.f[1] (width s) (height s) data

/-- `CNT <- W*H; IDX <- 0`, in the step that consumes the sixth header byte (44_raster.md R189). -/
def loadCounters (s : State) : State :=
  { s with cnt := BitVec.ofNat 32 (rasterBytes (width s) (height s)), idx := 0 }

/-- `RB[0..W*H-1]` (20_memory.md R69). -/
def rasterData (s : State) : Option (List Byte) :=
  s.rb.readRange 0 (rasterBytes (width s) (height s))

/-- The bytes of the current command consumed so far, read back from the latches that are valid in each phase
(10_state.md R23). -/
def commandBytes (s : State) : List Byte :=
  match s.phase with
  | .op0 => []
  | .op1 => [s.b0]
  | .payload => s.b0 :: s.b1 :: s.f.toList.take s.nf.val
  | .rdata => s.b0 :: s.b1 :: s.f.toList ++ (s.rb.readRange 0 s.idx.toNat).getD []
  | .halt => []

end Sys2Proof.Machine
end

