-- ==== Sys2Proof/Machine/Decoder.lean ====
section
/-! DEFINITION. The decoder step function `delta` (30_encoding.md R110), a full decoder step (R64), the agents' moves
(00_scope.md R11), and `delta` over a byte sequence (R113). -/

namespace Sys2Proof.Machine

/-- `OP0`: a single-byte command, or the first byte of a two-byte opcode (R98). -/
def deltaOp0 (b : Byte) (s : State) : Result :=
  if b = 0x00 then exec .idle s
  else if b = 0x1E then exec .buzz s
  else .next (await .op1 (latchFirst b s))

/-- `OP1`: the second opcode byte, whatever its value (R99), and the lookup (R100). -/
def deltaOp1 (b : Byte) (s : State) : Result :=
  let s := latchSecond b s
  match opcode s with
  | some op => if need op s.f[0] = 0 then exec (operands op [] s) s else .next (await .payload s)
  | none => exec (.unk s.b0 s.b1) s

/-- The sixth header byte of `1D76` is in: load the counters; an image of no bytes is complete at once (44_raster.md
R189 to R191). -/
def startRaster (s : State) : Result :=
  let s := loadCounters s
  if s.cnt = 0 then exec (operands .raster [] s) s else .next (await .rdata s)

/-- `PAYLOAD`: one field byte; the command is complete when `NF = need(OPC, F)` (R101). -/
def deltaPayload (b : Byte) (s : State) : Result :=
  if s.nf.val < 6 then
    let s := latchField b s
    match opcode s with
    | none => .next s
    | some op =>
      if s.nf.val = need op s.f[0] then
        (if op = .raster then startRaster s else exec (operands op [] s) s)
      else .next s
  else .fault .fieldOverflow

/-- `RDATA`: one raster data byte; the last one completes the image (R191, R192). -/
def deltaRdata (b : Byte) (s : State) : Result :=
  if s.cnt = 0 then .fault .countUnderflow
  else if s.idx.toNat < Config.rbCapacity then
    let s := latchRaster b s
    if s.cnt = 0 then
      match rasterData s with
      | some data => exec (operands .raster data s) s
      | none => .fault .unwrittenRasterByte
    else .next s
  else .fault .rasterIndexOutOfRange

/-- `delta(b)` (R110). -/
def delta (b : Byte) (s : State) : Result :=
  match s.phase with
  | .op0 => deltaOp0 b s
  | .op1 => deltaOp1 b s
  | .payload => deltaPayload b s
  | .rdata => deltaRdata b s
  | .halt => .fault .deltaInHalt

/-- A decoder step: take a byte and do `delta`, all in one transition (R64, R110); with none left, the end-of-stream
step (60_exceptions.md R228) or suspension (R59, R221). A halted decoder has no step (R228): its state stays as it is
(log 3). -/
def decoderStep (s : State) : Result :=
  if s.halted then .next s
  else match nextByte s with
    | .byte b s' => delta b s'
    | .eos => .next (raise .endOfStream s)
    | .suspend => .next (raise .starvation s)

/-- One move of an agent (R11). -/
def move (m : Move) (s : State) : Result :=
  match m with
  | .push b => .next (push b s)
  | .close => .next (close s)
  | .decode => decoderStep s

/-- `delta` over a byte sequence, each byte counted in `POS`: the `parse` of R113 from any state. -/
def feed (bs : List Byte) (s : State) : Result :=
  match bs with
  | [] => .next s
  | b :: rest =>
    match delta b { s with pos := s.pos + 1 } with
    | .next s' => feed rest s'
    | .fault r => .fault r
    | .refused r => .refused r

/-- `parse(s)` from the reset state (R113). -/
def parse (bs : List Byte) : Result := feed bs State.reset

/-- The state in which the decoder's next byte is the last of the command `bs`: the bytes before it are consumed into
the latches from `OP0`, the last one stands first in `BUF`, and the next turn is the decoder's (log 17). -/
def presentCommand (bs : List Byte) (s : State) : State :=
  let s := { s with phase := .op0, halted := false, turns := .decode :: s.turns }
  match feed bs.dropLast s with
  | .next t => { t with buf := bs.getLast?.toList ++ t.buf, wait := false }
  | _ => s

end Sys2Proof.Machine
end

