-- ==== Sys2Proof/Machine/Step.lean ====
section
/-! DEFINITION. One step of the machine: the agent whose turn it is makes its move (00_scope.md R11, log 2). -/

namespace Sys2Proof.Machine

/-- The next move of `turns`; when none is left, a decoder step. -/
def step (s : State) : Host.Outcome State Fault Refusal :=
  match s.turns with
  | [] => decoderStep s
  | m :: rest => move m { s with turns := rest }

/-- The state whose next step runs the command of a table word (log 17). -/
def State.withFetchWord (s : State) (nbits w : Nat) : State :=
  match decodeTableWord nbits w with
  | some i => presentCommand (encode i) s
  | none => s

end Sys2Proof.Machine
end

