-- ==== Sys2Proof/Machine/Sessions.lean ====
section
/-! DEFINITION. Any number of sessions, each a complete copy of the state (10_state.md R41, 60_exceptions.md R237): the
Session Driver's accept and teardown (70_reset_and_hazards.md R260, R265) beside the moves of each session. -/

namespace Sys2Proof.Machine

/-- The sessions accepted so far, oldest first; `none` is one whose state was discarded. -/
abbrev Sessions := List (Option State)

/-- A new connection: one more session, in the reset state (R260). -/
def accept (ss : Sessions) : Sessions := ss ++ [some State.reset]

/-- Discard session `k`; only a halted session may be discarded (R265), otherwise nothing happens (log 18). -/
def teardown (k : Nat) (ss : Sessions) : Sessions :=
  match ss[k]? with
  | some (some s) => if s.halted then ss.set k none else ss
  | _ => ss

/-- A move of an agent of session `k` (R237); in a session that does not exist nobody moves. -/
def sessionMove (k : Nat) (m : Move) (ss : Sessions) : Host.Outcome Sessions Fault Refusal :=
  match ss[k]? with
  | some (some s) =>
    match move m s with
    | .next t => .next (ss.set k (some t))
    | .fault r => .fault r
    | .refused r => .refused r
  | _ => .next ss

end Sys2Proof.Machine
end

