-- ==== Sys2Proof/Machine/Unpacker.lean ====
section
/-! DEFINITION. The raster bit-unpacker: the pixel function of an `Image` (44_raster.md R195 to R197). A pixel is
`true` for mark and `false` for blank; `none` is a place outside the image or outside its data (log 15). -/

namespace Sys2Proof.Machine

/-- `Unpack(b)`: eight pixels, leftmost first, bit 7 leftmost (R195). -/
def unpack (b : Byte) : List Bool :=
  [bit b 7, bit b 6, bit b 5, bit b 4, bit b 3, bit b 2, bit b 1, bit b 0]

/-- `Pixel(y, c)` (R196). -/
def pixel (w h : Half) (data : List Byte) (y c : Nat) : Option Bool :=
  if y < h.toNat ∧ c < 8 * w.toNat then
    (data[y * w.toNat + c / 8]?).map fun b => bit b (7 - c % 8)
  else none

/-- Row `y` of the image, the concatenation of its unpacked bytes (R197). -/
def imageRow (w : Half) (data : List Byte) (y : Nat) : List Bool :=
  ((data.drop (y * w.toNat)).take w.toNat).flatMap unpack

/-- The image, rows `0` to `H-1` top to bottom (R197). -/
def imageRows (w h : Half) (data : List Byte) : List (List Bool) :=
  (List.range h.toNat).map (imageRow w data)

end Sys2Proof.Machine
end

