-- ==== Sys2Proof/WellFormed.lean ====
section
/-! DEFINITION. Which terms of `Instr` are commands of the table: the operand conditions of 30_encoding.md R115 and
44_raster.md R185. -/

namespace Sys2Proof

/-- `CUT` takes only `m` in {0, 1, 49}, `CUTF` only other `m`; `UNK` neither a single-byte first byte nor a table
pair; `RASTER` exactly `W*H` data bytes (R115, R185, R210). -/
def Instr.wellFormed (i : Instr) : Bool :=
  match i with
  | .cut m => isShortCut m
  | .cutf m _ => !isShortCut m
  | .raster _ _ w h data => data.length == rasterBytes w h
  | .unk b0 b1 => !isSingleByte b0 && lookup b0 b1 == none
  | .idle | .buzz | .pmode _ | .init | .feed _ | .charset _ | .reverse _ | .skip2 _ _ | .codepage _ | .units _ _
  | .status _ => true

end Sys2Proof
end

