-- ==== Sys2Proof/Safety.lean ====
section
/-! DEFINITION. The terms in which claims about the machine are stated: runs, the invariant of 10_state.md R38, what
each command is to leave on the outputs and in the latches, and what two states have in common. -/

namespace Sys2Proof.Machine

/-! ### Runs -/

/-- `n` steps, up to the first stop. -/
def steps (n : Nat) (s : State) : Result :=
  match n with
  | 0 => .next s
  | n + 1 =>
    match step s with
    | .next t => steps n t
    | .fault r => .fault r
    | .refused r => .refused r

/-- The producer's moves among the turns, in order. -/
def producerMoves (ms : List Move) : List Move := ms.filter (· ≠ .decode)

/-- The bytes the producer gets accepted: those pushed before the stream is closed (20_memory.md R56). -/
def acceptedBytes (closed : Bool) (ms : List Move) : List Byte :=
  match ms with
  | [] => []
  | .push b :: rest => if closed then acceptedBytes closed rest else b :: acceptedBytes closed rest
  | .close :: rest => acceptedBytes true rest
  | .decode :: rest => acceptedBytes closed rest

/-- The decoder is between commands, has every turn (the model's list of turns is empty, log 2), and finds `bytes` first
in its queue. -/
structure Ready (s : State) (bytes rest : List Byte) : Prop where
  phase : s.phase = .op0
  running : s.halted = false
  turn : s.turns = []
  queue : s.buf = bytes ++ rest

/-! ### What commands leave behind -/

/-- The events a command emits: the table of 00_scope.md R13. -/
def eventsOf (i : Instr) : List Event :=
  match i with
  | .buzz => [.buzzer]
  | .pmode n => [.printMode n (bit n 0) (bit n 3) (bit n 4) (bit n 5) (bit n 7)]
  | .init => [.resetPrinter]
  | .feed n => [.feedPaper n]
  | .charset n => [.selectCharset n ((charsetLabel n).getD .reserved)]
  | .reverse n => [.reverseMode (n != 0)]
  | .codepage n => [.codePage n]
  | .units x y => [.motionUnits x y]
  | .cut m => [.partialCut m]
  | .cutf m n => [.feedAndCut m n]
  | .status n => [.statusEnable n (bit n 0) (bit n 1) (bit n 2) (bit n 3)]
  | .raster k mode w h data => [.image k mode w h data]
  | .idle | .skip2 _ _ | .unk _ _ => []

/-- The bytes a command writes to TX: `1D61` only (20_memory.md R71). -/
def replyOf (i : Instr) : List Byte :=
  match i with
  | .status _ => [0x14, 0x00, 0x00, 0x00, 0xFF]
  | .idle | .buzz | .pmode _ | .init | .feed _ | .charset _ | .reverse _ | .skip2 _ _ | .codepage _ | .units _ _
  | .cut _ | .cutf _ _ | .raster _ _ _ _ _ | .unk _ _ => []

/-- Whether a command is an unknown opcode. -/
def isUnknown (i : Instr) : Bool :=
  match i with
  | .unk _ _ => true
  | .idle | .buzz | .pmode _ | .init | .feed _ | .charset _ | .reverse _ | .skip2 _ _ | .codepage _ | .units _ _
  | .cut _ | .cutf _ _ | .status _ | .raster _ _ _ _ _ => false

/-- Field bytes into `F`, in arrival order. -/
def latchFields (bs : List Byte) (s : State) : State := bs.foldl (fun s b => latchField b s) s

/-- Raster data bytes into `RB`, in arrival order. -/
def latchData (bs : List Byte) (s : State) : State := bs.foldl (fun s b => latchRaster b s) s

/-- The latches after all bytes of a command: the "writes" column of 10_state.md R26. -/
def commandLatches (i : Instr) (s : State) : State :=
  match i with
  | .idle | .buzz => s
  | .raster k mode w h data =>
    latchData data (loadCounters (latchFields [k, mode, lowByte w, highByte w, lowByte h, highByte h]
      (latchSecond 0x76 (latchFirst 0x1D s))))
  | i => latchFields ((encode i).drop 2) (latchSecond ((encode i).getD 1 0) (latchFirst ((encode i).getD 0 0) s))

/-- The state after `next_byte()` has taken the oldest byte. -/
def consume (s : State) : State := { s with buf := s.buf.tail, pos := s.pos + 1 }

/-- The latches after one more byte of the current command: where R110 stores it in each phase. -/
def latched (b : Byte) (s : State) : State :=
  match s.phase with
  | .op0 => if isSingleByte b then s else latchFirst b s
  | .op1 => latchSecond b s
  | .payload =>
    let t := latchField b s
    if opcode t = some .raster ∧ t.nf.val = 6 then loadCounters t else t
  | .rdata => latchRaster b s
  | .halt => s

/-! ### The invariant (10_state.md R38) -/

/-- The field conditions of the event table R13: decoded bits agree with the raw byte, the label with the index, the
form of a cut with `m`, and an image has exactly `W*H` data bytes. -/
def eventOk (e : Event) : Bool :=
  match e with
  | .printMode n a b c d u => Event.printMode n a b c d u == printModeOf n
  | .selectCharset n l => l == (charsetLabel n).getD .reserved
  | .partialCut m => isShortCut m
  | .feedAndCut m _ => !isShortCut m
  | .statusEnable n a b c d => Event.statusEnable n a b c d == statusEnableOf n
  | .image _ _ w h data => data.length == rasterBytes w h
  | .buzzer | .resetPrinter | .feedPaper _ | .reverseMode _ | .codePage _ | .motionUnits _ _ => true

/-- Whether an event is one of `1D61`. -/
def isStatusEvent (e : Event) : Bool :=
  match e with
  | .statusEnable _ _ _ _ _ => true
  | .buzzer | .printMode _ _ _ _ _ _ | .resetPrinter | .feedPaper _ | .selectCharset _ _ | .reverseMode _
  | .codePage _ | .motionUnits _ _ | .partialCut _ | .feedAndCut _ _ | .image _ _ _ _ _ => false

/-- `k` copies of the acknowledgement. -/
def acks (k : Nat) : List Byte := (List.replicate k Config.ack).flatten

/-- What every reachable state satisfies: R38 but for (e), which counts moves and not state, with R31, R42, R53 and
the form of the raster buffer. -/
structure Inv (s : State) : Prop where
  /-- R38(a) -/
  bufWait : s.buf ≠ [] → s.wait = false
  /-- R53 -/
  closedWait : s.closed = true → s.wait = false
  /-- R31 -/
  haltPhase : s.halted = true ↔ s.phase = .halt
  /-- R38(b) -/
  haltQueue : s.halted = true → s.closed = true ∧ s.buf = []
  /-- in `OP1` the latch `B0` holds a byte that opens a two-byte opcode (R23, R98) -/
  op1First : s.phase = .op1 → isSingleByte s.b0 = false
  /-- R38(c) -/
  payloadFields : s.phase = .payload → ∃ op, opcode s = some op ∧ s.nf.val < need op s.f[0]
  /-- R38(d) -/
  rdataCounts : s.phase = .rdata → opcode s = some .raster ∧ s.nf.val = 6 ∧ 1 ≤ s.cnt.toNat ∧
    s.idx.toNat + s.cnt.toNat = rasterBytes (width s) (height s)
  /-- in `RDATA` the cells `RB[0..IDX-1]` are written (R23, R42) -/
  rdataWritten : s.phase = .rdata → (s.rb.readRange 0 s.idx.toNat).isSome = true
  /-- the raster buffer is in canonical form -/
  rbForm : s.rb.wf = true
  /-- the raster buffer holds no cell beyond its capacity (R66) -/
  rbRange : ∀ c ∈ s.rb, c.1 < Config.rbCapacity
  /-- R13 -/
  events : ∀ e ∈ s.ev, eventOk e = true
  /-- R38(f): each retired `1D61` leaves one event and one acknowledgement -/
  replies : s.tx = acks (s.ev.countP isStatusEvent)

/-! ### What two states have in common -/

/-- The state with the operand latches, the counters and the raster buffer blanked. -/
def withoutLatches (s : State) : State :=
  { s with b0 := 0, b1 := 0, f := Vector.replicate 6 0, nf := 0, cnt := 0, idx := 0, rb := [] }

/-- Two states that agree in everything but the latches, and in the bytes of the current command, which are what the
valid latches of R23 hold. -/
def sameButStaleLatches (s t : State) : Prop :=
  withoutLatches s = withoutLatches t ∧ commandBytes s = commandBytes t

end Sys2Proof.Machine
end

