-- ==== Sys2Proof/Certificates/Slice0/Obligations.lean ====
section
/-! DEFINITION. The statements for the provers. Each docstring names the rules of the spec it formalises. -/

open Sys2Proof Sys2Proof.Machine

/-! ### Reset and the invariant -/

/-- R39, the rows that give a value: queue, status, position and traces after reset. Most rows are the spec's
decisions D7, D16, D22. -/
def Obligations.ResetLeavesTheSpecifiedValues : Prop :=
  State.reset.buf = [] ∧ State.reset.wait = false ∧ State.reset.closed = false ∧ State.reset.phase = .op0 ∧
  State.reset.halted = false ∧ State.reset.unkSeen = false ∧ State.reset.pos = 0 ∧ State.reset.ev = [] ∧
  State.reset.tx = []

/-- R38 at session start. -/
def Obligations.ResetMeetsTheInvariant : Prop := Inv State.reset

/-- R38 along every step of every agent. R38 is marked "derived" by the spec. That HALTED means PHASE = HALT (R31) is
decision D6 (log 9). -/
def Obligations.EveryStepKeepsTheInvariant : Prop :=
  ∀ s t : State, Inv s → step s = .next t → Inv t

/-- R107 and R42: nothing traps, and no latch or raster cell is read before it is written; the model's faults are
never reached from a state that meets the invariant. The faults are the model's own (log 5, log 6). That any
marker and mode byte goes on is decision D8 (log 11, UNSAFE), that no image is too large is decision D14 (log 13,
UNSAFE). -/
def Obligations.InvariantStatesNeverStop : Prop :=
  ∀ s : State, Inv s → ∃ t, step s = .next t

/-! ### Encoding -/

/-- R91 to R97, R115. A raster command is read with any marker and mode byte, which is decision D8 (R187, R188; log
11, UNSAFE). -/
def Obligations.EncodedCommandDecodesToItself : Prop :=
  ∀ (i : Instr) (rest : List Byte), i.wellFormed = true → decode (encode i ++ rest) = .ok (i, rest)

/-- The other direction: a byte string has one reading, and no byte of it is dropped. A raster command is read with
any marker and mode byte, which is decision D8 (R187, R188; log 11, UNSAFE). -/
def Obligations.DecodedBytesEncodeBack : Prop :=
  ∀ (bs rest : List Byte) (i : Instr), decode bs = .ok (i, rest) → i.wellFormed = true ∧ encode i ++ rest = bs

/-- R107: there is no illegal encoding; a byte string that is no command yet begins one. A raster command is read with
any marker and mode byte, which is decision D8 (R187, R188; log 11, UNSAFE). -/
def Obligations.EveryByteStringBeginsACommand : Prop :=
  ∀ (bs : List Byte) (e : DecodeReject), decode bs = .error e →
    ∃ (ext : List Byte) (i : Instr), decode (bs ++ ext) = .ok (i, [])

/-- Words written out from the format tables R91 to R97 (S1, V14, V35, V65, V80 of 95_test_vectors.md). -/
def Obligations.WrittenOutWordsDecode : Prop :=
  decode [0x1E, 0x00] = .ok (.buzz, [0x00]) ∧
  decode [0x1B, 0x21, 0x38] = .ok (.pmode 0x38, []) ∧
  decode [0x1D, 0x50, 0x00, 0xFF] = .ok (.units 0 255, []) ∧
  decode [0x1D, 0x56, 0x31, 0x00] = .ok (.cut 49, [0x00]) ∧
  decode [0x1D, 0x56, 0x30, 0x1E, 0x1E] = .ok (.cutf 48 0x1E, [0x1E]) ∧
  decode [0x1D, 0x61, 0x0F] = .ok (.status 15, []) ∧
  decode [0x1D, 0x76, 0x30, 0x00, 0x01, 0x00, 0x02, 0x00, 0x81, 0x18] = .ok (.raster 0x30 0 1 2 [0x81, 0x18], []) ∧
  decode [0x1D, 0x76, 0x30, 0x00, 0x2C, 0x01, 0x00, 0x02] = .error (.payloadShort .raster) ∧
  decode [0x1B, 0x61, 0x01] = .ok (.unk 0x1B 0x61, [0x01])

/-! ### A step and the command it completes -/

/-- A decoder step whose byte completes the command `i` is the handler of `i`, after the byte is taken from the queue
and stored in the latches (R64, R110). R64 is marked "derived"; that `exec` is the handler is log 1. It covers
`1D76` with any marker and mode byte (decision D8, log 11, UNSAFE), of no bytes (decision D18, log 14, UNSAFE) and
of any legal size (decision D14, log 13, UNSAFE). -/
def Obligations.StepRunsTheDecodedCommand : Prop :=
  ∀ (s : State) (b : Byte) (rest : List Byte) (i : Instr), Inv s → s.turns = [] → s.halted = false →
    s.buf = b :: rest → decode (commandBytes s ++ [b]) = .ok (i, []) →
    step s = exec i (latched b (consume s))

/-- A decoder step whose byte completes nothing only takes the byte and stores it (R110, R78(d)). -/
def Obligations.StepInsideACommandOnlyStoresItsByte : Prop :=
  ∀ (s : State) (b : Byte) (rest : List Byte) (e : DecodeReject), Inv s → s.turns = [] → s.halted = false →
    s.buf = b :: rest → decode (commandBytes s ++ [b]) = .error e →
    ∃ p, p ≠ .op0 ∧ p ≠ .halt ∧ step s = .next { latched b (consume s) with phase := p } ∧
      commandBytes { latched b (consume s) with phase := p } = commandBytes s ++ [b]

/-- R114 with R22 and R26: a command whose bytes stand in the queue takes exactly as many decoder steps as it has
bytes (R116), and those steps are its handler, run once, on the state with the bytes taken and the latches of R26
written. R114 is marked "derived from rule R110". It covers raster commands with any marker and mode byte
(decision D8, log 11) and of no bytes (decision D18, log 14). That `RB` holds every legal image is decision D14
(log 13, UNSAFE). -/
def Obligations.WholeCommandIsOneHandlerCall : Prop :=
  ∀ (s : State) (i : Instr) (rest : List Byte), i.wellFormed = true → Ready s (encode i) rest →
    (∃ t, exec i (commandLatches i { s with buf := rest, pos := s.pos + commandBytesCount i }) = .next t ∧
      t.phase = .op0 ∧ t.buf = rest ∧ t.pos = s.pos + commandBytesCount i) ∧
    steps (commandBytesCount i) s =
      exec i (commandLatches i { s with buf := rest, pos := s.pos + commandBytesCount i })

/-- R114: a stream of complete commands retires exactly those commands, in order, and `UNKSEEN` is unchanged when none
of them is an unknown opcode. R114 is marked "derived from rule R110". It covers raster commands with any marker
and mode byte (decision D8, log 11) and of no bytes (decision D18, log 14), and `UNKSEEN` (decision D7, log 10).
That `RB` holds every legal image is decision D14 (log 13, UNSAFE). -/
def Obligations.StreamOfCommandsRetiresThemInOrder : Prop :=
  ∀ (cs : List Instr) (s : State) (rest : List Byte), (∀ c ∈ cs, c.wellFormed = true) →
    Ready s (cs.flatMap encode) rest →
    ∃ t, steps (cs.map commandBytesCount).sum s = .next t ∧ t.phase = .op0 ∧ t.halted = false ∧ t.buf = rest ∧
      t.pos = s.pos + (cs.map commandBytesCount).sum ∧ t.ev = s.ev ++ cs.flatMap eventsOf ∧
      t.tx = s.tx ++ cs.flatMap replyOf ∧ t.unkSeen = (s.unkSeen || cs.any isUnknown)

/-- R12: what a session ends with does not depend on how the producer's moves and the decoder's steps interleave. The
turns are the model's own (log 2); R12 is marked "derived". It rests on decisions D4 and D5, what `close` leaves
and what follows it (log 8). -/
def Obligations.OutcomeIsFreeOfInterleaving : Prop :=
  ∀ (s : State) (ms ns : List Move), producerMoves ms = producerMoves ns →
    ∀ n, 2 * (ms.length + ns.length) + s.buf.length + 1 ≤ n →
      steps n { s with turns := ms } = steps n { s with turns := ns }

/-- R42 and R34: from two states that agree but for stale latches (those that R23 does not call valid, and the raster
buffer outside an active command), steps agree for ever; so no latch is read before the current command writes it and
no earlier command has an effect on a later one. So the latch values the model chose at reset (log 4) are never seen. -/
def Obligations.StaleLatchesNeverMatter : Prop :=
  ∀ s t : State, Inv s → Inv t → sameButStaleLatches s t →
    ∃ s' t', step s = .next s' ∧ step t = .next t' ∧ sameButStaleLatches s' t'

/-! ### Sessions as wholes -/

/-- R113: a session whose producer pushes exactly `bs` and then closes ends as `parse(bs)` does, halted. The turns are
the model's own (log 2); R113 is marked "derived". Consuming what is buffered at `close` is decision D4 (log 8,
UNSAFE), the halt is decision D6 (log 9). -/
def Obligations.SessionEndsAsItsParse : Prop :=
  ∀ bs : List Byte, ∃ p, parse bs = .next p ∧
    steps (2 * bs.length + 2) { State.reset with turns := bs.map .push ++ [.close] } =
      .next { p with closed := true, halted := true, phase := .halt }

/-- R113: what `parse` retires is what the decoder of byte strings reads, command after command: its outputs are those
of the retired commands, its latches hold the bytes left over, and no command of `bs` is lost or changed by bytes
that follow. R113 is marked "derived". It covers raster commands with any marker and mode byte (decision D8, log
11) and of no bytes (decision D18, log 14), and `UNKSEEN` (decision D7, log 10). That `RB` holds every legal image
is decision D14 (log 13, UNSAFE). -/
def Obligations.ParseRetiresTheDecodedCommands : Prop :=
  ∀ (bs more : List Byte), ∃ p, parse bs = .next p ∧
    (retired bs).flatMap encode ++ residual bs = bs ∧ (∀ c ∈ retired bs, c.wellFormed = true) ∧
    p.ev = (retired bs).flatMap eventsOf ∧ p.tx = (retired bs).flatMap replyOf ∧
    p.unkSeen = (retired bs).any isUnknown ∧ p.pos = bs.length ∧ commandBytes p = residual bs ∧
    retired bs <+: retired (bs ++ more)

/-- R113: `parse(s ++ t)` extends `parse(s)`; its outputs are those of `parse(s)` and then more. R113 is marked
"derived". -/
def Obligations.LongerStreamExtendsTheOutputs : Prop :=
  ∀ (bs more : List Byte), ∃ p q, parse bs = .next p ∧ parse (bs ++ more) = .next q ∧ feed more p = .next q ∧
    p.ev <+: q.ev ∧ p.tx <+: q.tx ∧ q.pos = p.pos + more.length

/-- R228, R282, T8: after `close` the decoder halts, one step after it has consumed what was buffered. Two choices
stand behind it: that buffered bytes are still consumed after `close` is the spec's decision D4 (R62, R63; log 8,
UNSAFE), and that the decoder has every turn is its fairness assumption, decision D23 (R282), in the model an
empty list of turns (log 2). What the halt sets is decision D6 (log 9). -/
def Obligations.ClosedStreamHaltsTheDecoder : Prop :=
  ∀ s : State, Inv s → s.turns = [] → s.closed = true →
    ∃ t, steps (s.buf.length + 1) s = .next t ∧ t.halted = true ∧ t.phase = .halt ∧ t.buf = [] ∧
      t.pos = s.pos + s.buf.length

/-- R14, T8: without a `close` the decoder never halts. The turns are the model's own (log 2). -/
def Obligations.OpenStreamNeverHalts : Prop :=
  ∀ (n : Nat) (s t : State), s.closed = false → s.halted = false → .close ∉ s.turns → steps n s = .next t →
    t.closed = false ∧ t.halted = false

/-- R58, R63 and R38(e): bytes leave the queue in the order in which they were accepted, each one once and counted in
`POS`, and none is lost. Dropping a push after close is decision D5 (log 8). Losing none at `close` is decision D4
(R63; log 8, UNSAFE). That the queue is never full is decision D3 (log 13, UNSAFE). -/
def Obligations.QueueIsFirstInFirstOut : Prop :=
  ∀ (ms : List Move) (s t : State), s.turns = ms → steps ms.length s = .next t →
    s.pos ≤ t.pos ∧ t.buf = (s.buf ++ acceptedBytes s.closed ms).drop (t.pos - s.pos) ∧
    t.pos + t.buf.length = s.pos + (s.buf ++ acceptedBytes s.closed ms).length

/-- R230: a command cut short by the end of the stream, in whatever phase it stands and however many of its bytes are
still buffered, has no effect on EV or TX, but its bytes are consumed. R230 is marked "derived". Consuming what is
buffered after `close` is decision D4 (log 8, UNSAFE), the decoder having every turn is log 2. What the halt sets
is decision D6 (log 9). -/
def Obligations.AbandonedCommandHasNoEffect : Prop :=
  ∀ (s : State) (e : DecodeReject), Inv s → s.halted = false → s.closed = true → s.turns = [] →
    decode (commandBytes s ++ s.buf) = .error e →
    ∃ t, steps (s.buf.length + 1) s = .next t ∧ t.halted = true ∧ t.ev = s.ev ∧ t.tx = s.tx ∧
      t.unkSeen = s.unkSeen ∧ t.pos = s.pos + s.buf.length

/-! ### Rules of the whole machine -/

/-- R71, R72, R74, R283: a step appends at most one event, and bytes to TX only beside the event of a `1D61`, and then
exactly the acknowledgement. -/
def Obligations.OutputsGrowByOneEventAndItsReply : Prop :=
  ∀ s t : State, step s = .next t →
    (t.ev = s.ev ∧ t.tx = s.tx) ∨
    (∃ e, t.ev = s.ev ++ [e] ∧
      t.tx = s.tx ++ if isStatusEvent e then [0x14, 0x00, 0x00, 0x00, 0xFF] else [])

/-- R33: `UNKSEEN` is never cleared, and only the second byte of an unknown pair sets it. UNKSEEN is decision D7 (log
10). -/
def Obligations.UnknownSeenIsSetOnlyByUnknownPairs : Prop :=
  ∀ s t : State, step s = .next t →
    (s.unkSeen = true → t.unkSeen = true) ∧
    (s.unkSeen = false → t.unkSeen = true →
      s.phase = .op1 ∧ s.halted = false ∧ ∃ b rest, s.buf = b :: rest ∧ lookup s.b0 b = none)

/-- R30, R31, R235: `CLOSED` and `HALTED` are never cleared; only the producer's `close` sets the one, and only a
decoder step that finds the queue empty and closed sets the other. What the end of the stream sets is decision D6
(log 9); that it waits for an empty queue is decision D4 (log 8). -/
def Obligations.ClosedAndHaltedAreSetOnce : Prop :=
  ∀ s t : State, step s = .next t →
    (s.closed = true → t.closed = true) ∧ (s.halted = true → t.halted = true) ∧
    (s.closed = false → t.closed = true → ∃ rest, s.turns = .close :: rest) ∧
    (s.halted = false → t.halted = true → s.closed = true ∧ s.buf = [] ∧
      (s.turns = [] ∨ ∃ rest, s.turns = .decode :: rest))

/-- R21: `POS` advances by exactly one when a step consumes a byte, and by nothing else. Keeping POS is decision D22. -/
def Obligations.PositionCountsConsumedBytes : Prop :=
  ∀ s t : State, step s = .next t →
    (t.pos = s.pos ∧ s.buf <+: t.buf) ∨ (t.pos = s.pos + 1 ∧ ∃ b, s.buf = b :: t.buf)

/-- R26, R130, R140: every handler completes, leaves `PHASE = OP0`, and changes nothing but EV, TX and `UNKSEEN`
beside it: no latch, no counter, no cell of the raster buffer, nothing of the queue. That the handler of `1D76`
completes for every marker and mode byte is decision D8 (log 11, UNSAFE); UNKSEEN is decision D7 (log 10). -/
def Obligations.HandlersChangeOnlyTheOutputs : Prop :=
  ∀ (i : Instr) (s : State), ∃ t, exec i s = .next t ∧ t.phase = .op0 ∧
    { t with phase := s.phase, ev := s.ev, tx := s.tx, unkSeen := s.unkSeen } = s

/-! ### The queue and the conditions -/

/-- R57: the three results of `next_byte()`, and what a decoder step makes of the last one. That a starved decoder
takes a step at all, one that sets WAIT, is the model's convention (log 3): R64, marked "derived", gives it no
enabled step. That a request made after `close` yields `EOS` too is decision D4 (R62, log 8). -/
def Obligations.NextByteYieldsTheOldestByte : Prop :=
  ∀ s : State,
    (∀ b rest, s.buf = b :: rest → nextByte s = .byte b { s with buf := rest, pos := s.pos + 1 }) ∧
    (s.buf = [] → s.closed = true → nextByte s = .eos) ∧
    (s.buf = [] → s.closed = false → nextByte s = .suspend ∧
      (s.halted = false → decoderStep s = .next { s with wait := true }))

/-- R54 and R56: `push` on an open stream with no request waiting appends to `BUF` and changes nothing else; after
`close` the byte is dropped. Dropping is decision D5 (log 8); the move leaves the model's own list of turns (log
2). That the queue is never full is decision D3 (log 13, UNSAFE). -/
def Obligations.PushAppendsWhileTheStreamIsOpen : Prop :=
  ∀ (s : State) (b : Byte) (rest : List Move), s.turns = .push b :: rest →
    (s.closed = false → s.wait = false → step s = .next { s with buf := s.buf ++ [b], turns := rest }) ∧
    (s.closed = true → step s = .next { s with turns := rest })

/-- R55: a byte pushed while a request waits resolves it, and the decoder's next step consumes that byte. The move
leaves the model's own list of turns (log 2); R64 is marked "derived". -/
def Obligations.PushResolvesTheWaitingRequest : Prop :=
  ∀ (s : State) (b : Byte) (rest : List Move), Inv s → s.turns = .push b :: rest → s.wait = true →
    step s = .next { s with buf := [b], wait := false, turns := rest } ∧
    nextByte { s with buf := [b], wait := false, turns := rest } =
      .byte b { s with buf := [], wait := false, turns := rest, pos := s.pos + 1 }

/-- R61 and R63: `close` sets `CLOSED`, resolves a waiting request, which then yields `EOS`, and removes nothing from
the queue; a second `close` does nothing. That no buffered byte is removed is the spec's decision D4 (R63; log 8,
UNSAFE); the move leaves the model's own list of turns (log 2). -/
def Obligations.CloseKeepsTheBufferedBytes : Prop :=
  ∀ (s : State) (rest : List Move), s.turns = .close :: rest →
    (s.closed = false → step s = .next { s with closed := true, wait := false, turns := rest }) ∧
    (s.closed = true → step s = .next { s with turns := rest }) ∧
    (Inv s → s.wait = true → nextByte { s with closed := true, wait := false, turns := rest } = .eos)

/-- R220, R221, R59, U17: a starved decoder's step changes nothing but `WAIT`, for as long as no byte comes. That a
step without an enabled transition changes nothing else is the model's convention (log 3). -/
def Obligations.StarvedDecoderOnlyWaits : Prop :=
  ∀ (n : Nat) (s : State), starved s = true → s.turns = [] → steps (n + 1) s = .next { s with wait := true }

/-- R228: the end-of-stream step changes `HALTED` and `PHASE` only, and after it the decoder does nothing, ever. That
a halted decoder's step changes nothing is the model's convention (log 3). What it sets is decision D6 (log 9). -/
def Obligations.EndOfStreamHaltsForGood : Prop :=
  ∀ (n : Nat) (s : State), s.halted = false → s.buf = [] → s.closed = true → s.turns = [] →
    steps (n + 1) s = .next { s with halted := true, phase := .halt }

/-- R41, R234, R237: a move in one session leaves every other session as it is; R260: a new session starts at reset;
R265: only a halted session is discarded. That discarding a running session does nothing is the model's reading
(log 18). That instantiation is the only reset is decision D21 (log 18), and that a running session may not be
discarded is decision D4 (R265; log 8, UNSAFE). -/
def Obligations.SessionsShareNothing : Prop :=
  ∀ (k : Nat) (m : Move) (ss ts : Sessions),
    (sessionMove k m ss = .next ts → ts.length = ss.length ∧ ∀ j, j ≠ k → ts[j]? = ss[j]?) ∧
    ((accept ss)[ss.length]? = some (some State.reset) ∧ ∀ j, j < ss.length → (accept ss)[j]? = ss[j]?) ∧
    (∀ j, j ≠ k → (teardown k ss)[j]? = ss[j]?) ∧
    (∀ s, ss[k]? = some (some s) → s.halted = false → teardown k ss = ss)

/-! ### The commands, family by family

Each statement says what the whole command does from its bytes in the queue (every latch of R26, `POS`, EV, TX), and what
its handler does, which completes for every operand. -/

/-- R131: `IDLE`, any number of them in a row. -/
def Obligations.IdleBytesHaveNoEffect : Prop :=
  ∀ (k : Nat) (s : State) (rest : List Byte), Ready s (List.replicate k 0x00) rest →
    steps k s = .next { s with buf := rest, pos := s.pos + k } ∧ exec .idle s = .next s

/-- R132: `BUZZ`, any number of them in a row, one event each; a step outside `OP0` emits none, whatever
byte it takes (R109). -/
def Obligations.BuzzEmitsBuzzer : Prop :=
  ∀ (k : Nat) (s : State) (rest : List Byte),
    (Ready s (List.replicate k 0x1E) rest → steps k s = .next { s with
      buf := rest, pos := s.pos + k, ev := s.ev ++ List.replicate k .buzzer }) ∧
    exec .buzz s = .next { s with phase := .op0, ev := s.ev ++ [.buzzer] } ∧
    (s.phase ≠ .op0 → ∀ t, step s = .next t → t.ev.count .buzzer = s.ev.count .buzzer)

/-- R141: `PMODE n`. -/
def Obligations.PmodeEmitsItsFiveFlags : Prop :=
  ∀ (n : Byte) (s : State) (rest : List Byte),
    (Ready s [0x1B, 0x21, n] rest → steps 3 s = .next { s with
      buf := rest, pos := s.pos + 3, b0 := 0x1B, b1 := 0x21, nf := 1, f := s.f.set 0 n, ev := s.ev ++
        [.printMode n (n.getLsbD 0) (n.getLsbD 3) (n.getLsbD 4) (n.getLsbD 5) (n.getLsbD 7)] }) ∧
    exec (.pmode n) s = .next { s with phase := .op0, ev := s.ev ++
      [.printMode n (n.getLsbD 0) (n.getLsbD 3) (n.getLsbD 4) (n.getLsbD 5) (n.getLsbD 7)] }

/-- R142: `INIT` emits its event and resets nothing; its handler runs in the `OP1` step, which no other table command's
does. -/
def Obligations.InitOnlyEmitsItsEvent : Prop :=
  ∀ (s : State) (rest : List Byte),
    (Ready s [0x1B, 0x40] rest →
      steps 1 s = .next { s with buf := 0x40 :: rest, pos := s.pos + 1, phase := .op1, b0 := 0x1B } ∧
      steps 2 s = .next { s with
        buf := rest, pos := s.pos + 2, b0 := 0x1B, b1 := 0x40, nf := 0, ev := s.ev ++ [.resetPrinter] }) ∧
    exec .init s = .next { s with phase := .op0, ev := s.ev ++ [.resetPrinter] } ∧
    (∀ (b : Byte) (op : Opcode), s.phase = .op1 → s.halted = false → s.turns = [] → s.buf = b :: rest →
      lookup s.b0 b = some op → op ≠ .init →
      step s = .next { s with buf := rest, pos := s.pos + 1, phase := .payload, b1 := b, nf := 0 })

/-- R143, R148 and R149: `FEED n`, `CODEPAGE n` and `UNITS x, y` emit their fields as sent. -/
def Obligations.PlainCommandsEmitTheirFields : Prop :=
  ∀ (n x y : Byte) (s : State) (rest : List Byte),
    (Ready s [0x1B, 0x4A, n] rest → steps 3 s = .next { s with
      buf := rest, pos := s.pos + 3, b0 := 0x1B, b1 := 0x4A, nf := 1, f := s.f.set 0 n,
      ev := s.ev ++ [.feedPaper n] }) ∧
    exec (.feed n) s = .next { s with phase := .op0, ev := s.ev ++ [.feedPaper n] } ∧
    (Ready s [0x1B, 0x74, n] rest → steps 3 s = .next { s with
      buf := rest, pos := s.pos + 3, b0 := 0x1B, b1 := 0x74, nf := 1, f := s.f.set 0 n,
      ev := s.ev ++ [.codePage n] }) ∧
    exec (.codepage n) s = .next { s with phase := .op0, ev := s.ev ++ [.codePage n] } ∧
    (Ready s [0x1D, 0x50, x, y] rest → steps 4 s = .next { s with
      buf := rest, pos := s.pos + 4, b0 := 0x1D, b1 := 0x50, nf := 2, f := (s.f.set 0 x).set 1 y,
      ev := s.ev ++ [.motionUnits x y] }) ∧
    exec (.units x y) s = .next { s with phase := .op0, ev := s.ev ++ [.motionUnits x y] }

/-- R144 and R145: `CHARSET n` in range and out of range; the byte is consumed either way. -/
def Obligations.CharsetMapsItsIndexOrReserves : Prop :=
  ∀ (n : Byte) (s : State) (rest : List Byte),
    (∀ h : n.toNat ≤ 13,
      (Ready s [0x1B, 0x52, n] rest → steps 3 s = .next { s with
        buf := rest, pos := s.pos + 3, b0 := 0x1B, b1 := 0x52, nf := 1, f := s.f.set 0 n,
        ev := s.ev ++ [.selectCharset n (.name ⟨n.toNat, by omega⟩)] }) ∧
      exec (.charset n) s =
        .next { s with phase := .op0, ev := s.ev ++ [.selectCharset n (.name ⟨n.toNat, by omega⟩)] }) ∧
    (14 ≤ n.toNat →
      (Ready s [0x1B, 0x52, n] rest → steps 3 s = .next { s with
        buf := rest, pos := s.pos + 3, b0 := 0x1B, b1 := 0x52, nf := 1, f := s.f.set 0 n,
        ev := s.ev ++ [.selectCharset n .reserved] }) ∧
      exec (.charset n) s = .next { s with phase := .op0, ev := s.ev ++ [.selectCharset n .reserved] })

/-- R146: `REVERSE n` is on for every `n` but 0. -/
def Obligations.ReverseTestsTheWholeByte : Prop :=
  ∀ (n : Byte) (s : State) (rest : List Byte) (on : Bool), (on = true ↔ n ≠ 0) →
    (Ready s [0x1D, 0x42, n] rest → steps 3 s = .next { s with
      buf := rest, pos := s.pos + 3, b0 := 0x1D, b1 := 0x42, nf := 1, f := s.f.set 0 n,
      ev := s.ev ++ [.reverseMode on] }) ∧
    exec (.reverse n) s = .next { s with phase := .op0, ev := s.ev ++ [.reverseMode on] }

/-- R147: `SKIP2 a, b` consumes two bytes, whatever they are, and emits nothing. -/
def Obligations.SkipTwoDiscardsItsPayload : Prop :=
  ∀ (a b : Byte) (s : State) (rest : List Byte),
    (Ready s [0x1B, 0x63, a, b] rest → steps 4 s = .next { s with
      buf := rest, pos := s.pos + 4, b0 := 0x1B, b1 := 0x63, nf := 2, f := (s.f.set 0 a).set 1 b }) ∧
    exec (.skip2 a b) s = .next { s with phase := .op0 }

/-- R166 and R167: the two forms of `1D56`; each handler runs in the step that consumes the form's last byte, and a
long form cut short after `m` by the end of the stream emits nothing. In that last clause `m` may still be
buffered at `close`: that it is consumed is decision D4 (log 8, UNSAFE). What the halt sets is decision D6 (log
9). -/
def Obligations.CutFormsEmitTheirEvents : Prop :=
  ∀ (m n : Byte) (s : State) (rest : List Byte),
    (m = 0 ∨ m = 1 ∨ m = 49 →
      (Ready s [0x1D, 0x56, m] rest →
        steps 2 s = .next { s with
          buf := m :: rest, pos := s.pos + 2, phase := .payload, b0 := 0x1D, b1 := 0x56, nf := 0 } ∧
        steps 3 s = .next { s with
          buf := rest, pos := s.pos + 3, b0 := 0x1D, b1 := 0x56, nf := 1, f := s.f.set 0 m,
          ev := s.ev ++ [.partialCut m] }) ∧
      exec (.cut m) s = .next { s with phase := .op0, ev := s.ev ++ [.partialCut m] }) ∧
    (m ≠ 0 → m ≠ 1 → m ≠ 49 →
      (Ready s [0x1D, 0x56, m, n] rest →
        steps 3 s = .next { s with
          buf := n :: rest, pos := s.pos + 3, phase := .payload, b0 := 0x1D, b1 := 0x56, nf := 1,
          f := s.f.set 0 m } ∧
        steps 4 s = .next { s with
          buf := rest, pos := s.pos + 4, b0 := 0x1D, b1 := 0x56, nf := 2, f := (s.f.set 0 m).set 1 n,
          ev := s.ev ++ [.feedAndCut m n] }) ∧
      (Ready s [0x1D, 0x56, m] [] → s.closed = true → steps 4 s = .next { s with
        buf := [], pos := s.pos + 3, phase := .halt, halted := true, b0 := 0x1D, b1 := 0x56, nf := 1,
        f := s.f.set 0 m }) ∧
      exec (.cutf m n) s = .next { s with phase := .op0, ev := s.ev ++ [.feedAndCut m n] })

/-- R165: after `m` of `1D56` the command is complete if `m` is 0, 1 or 49; for every other `m` it takes exactly one byte
more, and none more than that. -/
def Obligations.CutLengthFollowsItsFirstByte : Prop :=
  ∀ (s : State) (m : Byte) (rest : List Byte), s.phase = .payload → s.halted = false → s.turns = [] →
    s.b0 = 0x1D → s.b1 = 0x56 → s.nf = 0 → s.buf = m :: rest →
    (m = 0 ∨ m = 1 ∨ m = 49 → step s = .next { s with
      buf := rest, pos := s.pos + 1, phase := .op0, f := s.f.set 0 m, nf := 1, ev := s.ev ++ [.partialCut m] }) ∧
    (m ≠ 0 → m ≠ 1 → m ≠ 49 →
      step s = .next { s with buf := rest, pos := s.pos + 1, f := s.f.set 0 m, nf := 1 } ∧
      ∀ n rest', rest = n :: rest' → steps 2 s = .next { s with
        buf := rest', pos := s.pos + 2, phase := .op0, f := (s.f.set 0 m).set 1 n, nf := 2,
        ev := s.ev ++ [.feedAndCut m n] })

/-- R175 to R177: `STATUS n` emits its four flags and writes the fixed acknowledgement, for every `n`, both in the
step that consumes `n`. -/
def Obligations.StatusEmitsAndAcknowledges : Prop :=
  ∀ (n : Byte) (s : State) (rest : List Byte),
    (Ready s [0x1D, 0x61, n] rest →
      steps 2 s = .next { s with
        buf := n :: rest, pos := s.pos + 2, phase := .payload, b0 := 0x1D, b1 := 0x61, nf := 0 } ∧
      steps 3 s = .next { s with
        buf := rest, pos := s.pos + 3, b0 := 0x1D, b1 := 0x61, nf := 1, f := s.f.set 0 n,
        ev := s.ev ++ [.statusEnable n (n.getLsbD 0) (n.getLsbD 1) (n.getLsbD 2) (n.getLsbD 3)],
        tx := s.tx ++ [0x14, 0x00, 0x00, 0x00, 0xFF] }) ∧
    exec (.status n) s = .next { s with
      phase := .op0,
      ev := s.ev ++ [.statusEnable n (n.getLsbD 0) (n.getLsbD 1) (n.getLsbD 2) (n.getLsbD 3)],
      tx := s.tx ++ [0x14, 0x00, 0x00, 0x00, 0xFF] }

/-- R211: an unknown pair is consumed, both bytes of it and no payload; `UNKSEEN` is set, nothing is emitted. The first
byte is any but 00 and 1E, the second any at all that makes no table pair (R98, R99). UNKSEEN is decision D7 (log
10). -/
def Obligations.UnknownPairSetsOnlyItsBit : Prop :=
  ∀ (b0 b1 : Byte) (s : State) (rest : List Byte), b0 ≠ 0x00 → b0 ≠ 0x1E → lookup b0 b1 = none →
    (Ready s [b0, b1] rest → steps 2 s = .next { s with
      buf := rest, pos := s.pos + 2, b0 := b0, b1 := b1, nf := 0, unkSeen := true }) ∧
    exec (.unk b0 b1) s = .next { s with phase := .op0, unkSeen := true }

/-- R100: the eleven table opcodes, by their bytes; every other pair selects no table command. -/
def Obligations.LookupIsTheTableOfElevenPairs : Prop :=
  ∀ (b0 b1 : Byte) (op : Opcode), lookup b0 b1 = some op ↔
    (b0, b1, op) ∈ ([(0x1B, 0x21, .pmode), (0x1B, 0x40, .init), (0x1B, 0x4A, .feed), (0x1B, 0x52, .charset),
      (0x1D, 0x42, .reverse), (0x1B, 0x63, .skip2), (0x1B, 0x74, .codepage), (0x1D, 0x50, .units),
      (0x1D, 0x56, .cut), (0x1D, 0x61, .status), (0x1D, 0x76, .raster)] : List (Byte × Byte × Opcode))

/-! ### The raster command and the unpacker -/

/-- R189 and R190: the sixth header byte loads the exact count, without wrap-around; a count of zero completes the
image at once, with no data. The count of zero is decision D18 (log 14). That every marker and mode byte is
accepted and passed on in that image (R187, R188) is the spec's decision D8 (log 11, UNSAFE), and that `RB` holds
every legal image is its decision D14 (log 13, UNSAFE). -/
def Obligations.SixthHeaderByteLoadsTheCount : Prop :=
  ∀ (s : State) (b : Byte) (rest : List Byte), s.phase = .payload → s.halted = false → s.turns = [] →
    s.b0 = 0x1D → s.b1 = 0x76 → s.nf = 5 → s.buf = b :: rest →
    ∃ t, step s = .next t ∧ t.f = s.f.set 5 b ∧ t.nf = 6 ∧ t.idx = 0 ∧ t.buf = rest ∧ t.pos = s.pos + 1 ∧
      t.rb = s.rb ∧ t.tx = s.tx ∧ t.unkSeen = s.unkSeen ∧
      t.cnt.toNat = (s.f[2].toNat + s.f[3].toNat * 256) * (s.f[4].toNat + b.toNat * 256) ∧
      (t.cnt ≠ 0 → t.phase = .rdata ∧ t.ev = s.ev) ∧
      (t.cnt = 0 → t.phase = .op0 ∧ t.ev = s.ev ++ [.image s.f[0] s.f[1] (width t) (height t) []])

/-- R191, R192 and R68: a raster data byte, whatever it is, goes to `RB[IDX]` and to no other cell; nothing is emitted
before the last one, and the last one emits the image of the bytes stored. The image is that of R194; that every
marker and mode byte is accepted and passed on in it (R187, R188) is the spec's decision D8 (log 11, UNSAFE), and
that `RB` holds every legal image is its decision D14 (log 13, UNSAFE). -/
def Obligations.RasterByteIsStoredNotInterpreted : Prop :=
  ∀ (s : State) (b : Byte) (rest : List Byte), Inv s → s.phase = .rdata → s.halted = false → s.turns = [] →
    s.buf = b :: rest →
    ∃ t, step s = .next t ∧ t.idx.toNat = s.idx.toNat + 1 ∧ t.cnt.toNat + 1 = s.cnt.toNat ∧
      t.rb.read s.idx.toNat = some b ∧ (∀ j, j ≠ s.idx.toNat → t.rb.read j = s.rb.read j) ∧
      { t with buf := s.buf, pos := s.pos, rb := s.rb, idx := s.idx, cnt := s.cnt, phase := s.phase, ev := s.ev } = s ∧
      t.buf = rest ∧ t.pos = s.pos + 1 ∧
      (1 < s.cnt.toNat → t.phase = .rdata ∧ t.ev = s.ev) ∧
      (s.cnt.toNat = 1 → t.phase = .op0 ∧ ∃ data, data.length = (width s).toNat * (height s).toNat ∧
        (∀ j, j < data.length → t.rb.read j = data[j]?) ∧
        t.ev = s.ev ++ [.image s.f[0] s.f[1] (width s) (height s) data])

/-- R185, R191 and R194: a whole `1D76` command, its `8 + W*H` bytes in the queue, ends with one `Image` that carries
its header fields and its data in arrival order, and writes the latches, the counters and `RB[0..W*H-1]` only; the
handler completes for every well-formed command. That every marker and mode byte is accepted and passed on (R187,
R188) is the spec's decision D8 (log 11, UNSAFE), and that an image of no bytes is emitted (R190) is its decision
D18 (log 14, UNSAFE). That `RB` holds every legal image is decision D14 (log 13, UNSAFE). -/
def Obligations.RasterCommandEmitsItsImage : Prop :=
  ∀ (k mode : Byte) (w h : Half) (data rest : List Byte) (s : State), data.length = w.toNat * h.toNat →
    Ready s ([0x1D, 0x76, k, mode, lowByte w, highByte w, lowByte h, highByte h] ++ data) rest →
    exec (.raster k mode w h data) s = .next { s with ev := s.ev ++ [.image k mode w h data] } ∧
    ∃ t, steps (8 + w.toNat * h.toNat) s = .next t ∧
      withoutLatches t = withoutLatches { s with
        buf := rest, pos := s.pos + (8 + w.toNat * h.toNat), ev := s.ev ++ [.image k mode w h data] } ∧
      t.b0 = 0x1D ∧ t.b1 = 0x76 ∧ t.nf = 6 ∧
      t.f = #v[k, mode, lowByte w, highByte w, lowByte h, highByte h] ∧
      t.cnt = 0 ∧ t.idx.toNat = w.toNat * h.toNat ∧
      (∀ j, j < data.length → t.rb.read j = data[j]?) ∧ (∀ j, data.length ≤ j → t.rb.read j = s.rb.read j)

/-- R195 with the source's example S2. -/
def Obligations.UnpackIsMostSignificantBitFirst : Prop :=
  (∀ b : Byte, (unpack b).length = 8 ∧ ∀ j, j < 8 → (unpack b)[j]? = some (b.getLsbD (7 - j))) ∧
  unpack 0x81 = [true, false, false, false, false, false, false, true]

/-- R196, the second form: bit `k` of the byte in row `y` at byte-in-row index `x` is the pixel at column
`x*8 + (7-k)`. The row-major layout is decision D15 (log 15). -/
def Obligations.PixelIsOneBitOfItsByte : Prop :=
  ∀ (w h : Half) (data : List Byte) (y x k : Nat), data.length = w.toNat * h.toNat → y < h.toNat → x < w.toNat →
    k < 8 → ∃ b, data[y * w.toNat + x]? = some b ∧ pixel w h data y (x * 8 + (7 - k)) = some (b.getLsbD k)

/-- R197 against R196: the rows of unpacked bytes and the pixel function describe one image, `8*W` by `H`, with no bit
unused and no padding. R197 is marked "derived". That the joined rows are the data in arrival order, and that
row `y` begins at `data[y*W]`, is the row-major layout (R67), the spec's decision D15 (log 15, UNSAFE). -/
def Obligations.RowsAndPixelsAgree : Prop :=
  ∀ (w h : Half) (data : List Byte), data.length = w.toNat * h.toNat →
    (imageRows w h data).length = h.toNat ∧
    (imageRows w h data).flatten = data.flatMap unpack ∧
    ∀ y, y < h.toNat → ∃ row, (imageRows w h data)[y]? = some row ∧ row.length = 8 * w.toNat ∧
      ∀ c, c < 8 * w.toNat → row[c]? = pixel w h data y c
end

