-- ==== Sys2Proof/Laws/Decode.lean ====
section
/-! SUPPORT. Field assembly, the opcode lookup and the field counts. -/

namespace Sys2Proof

theorem u16_toNat (lo hi : Byte) : (u16 lo hi).toNat = lo.toNat + hi.toNat * 256 := by
  have := lo.isLt; have := hi.isLt
  simp only [u16, BitVec.toNat_ofNat]
  omega

theorem u16_low_high (v : Half) : u16 (lowByte v) (highByte v) = v := by
  apply BitVec.eq_of_toNat_eq
  have := v.isLt
  simp only [u16_toNat, lowByte, highByte, BitVec.toNat_ofNat]
  omega

theorem lowByte_u16 (lo hi : Byte) : lowByte (u16 lo hi) = lo := by
  apply BitVec.eq_of_toNat_eq
  have := lo.isLt; have := hi.isLt
  simp only [lowByte, u16_toNat, BitVec.toNat_ofNat]
  omega

theorem highByte_u16 (lo hi : Byte) : highByte (u16 lo hi) = hi := by
  apply BitVec.eq_of_toNat_eq
  have := lo.isLt; have := hi.isLt
  simp only [highByte, u16_toNat, BitVec.toNat_ofNat]
  omega

theorem isSingleByte_iff (b : Byte) : isSingleByte b = true ↔ b = 0x00 ∨ b = 0x1E := by
  rw [isSingleByte, Bool.or_eq_true, beq_iff_eq, beq_iff_eq]

theorem not_isSingleByte {b : Byte} (h0 : b ≠ 0x00) (h1 : b ≠ 0x1E) : isSingleByte b = false := by
  rw [← Bool.not_eq_true, isSingleByte_iff]
  exact fun h => h.elim h0 h1

theorem isShortCut_iff (m : Byte) : isShortCut m = true ↔ m = 0 ∨ m = 1 ∨ m = 49 := by
  rw [isShortCut, Bool.or_eq_true, Bool.or_eq_true, beq_iff_eq, beq_iff_eq, beq_iff_eq, or_assoc]

/-- Every width times height is at most `RB_CAPACITY` (R66), so it fits the 32-bit counters (R28). -/
theorem rasterBytes_le (w h : Half) : rasterBytes w h ≤ 4294836225 := by
  have hw : w.toNat ≤ 65535 := by have := w.isLt; omega
  have hh : h.toNat ≤ 65535 := by have := h.isLt; omega
  simpa [rasterBytes] using Nat.mul_le_mul hw hh

/-- The first byte of a table opcode is no single-byte command. -/
theorem not_single_of_lookup {b0 b1 : Byte} {op : Opcode} (h : lookup b0 b1 = some op) :
    isSingleByte b0 = false := by
  unfold lookup at h
  split at h
  · subst_vars; rfl
  · split at h
    · subst_vars; rfl
    · cases h

theorem need_le_six (op : Opcode) (f0 : Byte) : need op f0 ≤ 6 := by
  cases op <;> simp [need]
  split <;> omega

theorem need_eq_zero_iff (op : Opcode) (f0 : Byte) : need op f0 = 0 ↔ op = .init := by
  cases op <;> simp [need]
  split <;> omega

theorem need_eq_six_iff (op : Opcode) (f0 : Byte) : need op f0 = 6 ↔ op = .raster := by
  cases op <;> simp [need]
  split <;> omega

/-- `need` reads `F[0]` for `1D56` only. -/
theorem need_congr {op : Opcode} (h : op ≠ .cut) (a b : Byte) : need op a = need op b := by
  cases op <;> simp_all [need]

end Sys2Proof
end

