-- ==== Sys2Proof/Laws/State.lean ====
section
/-! SUPPORT. What each operation on the state leaves in each field: one lemma per field and operation, so that no proof
unfolds a record update. -/

namespace Sys2Proof.Machine

/-! ### emit -/

@[simp] theorem emit_buf (e : Event) (s : State) : (emit e s).buf = s.buf := rfl
@[simp] theorem emit_wait (e : Event) (s : State) : (emit e s).wait = s.wait := rfl
@[simp] theorem emit_closed (e : Event) (s : State) : (emit e s).closed = s.closed := rfl
@[simp] theorem emit_phase (e : Event) (s : State) : (emit e s).phase = s.phase := rfl
@[simp] theorem emit_b0 (e : Event) (s : State) : (emit e s).b0 = s.b0 := rfl
@[simp] theorem emit_b1 (e : Event) (s : State) : (emit e s).b1 = s.b1 := rfl
@[simp] theorem emit_f (e : Event) (s : State) : (emit e s).f = s.f := rfl
@[simp] theorem emit_nf (e : Event) (s : State) : (emit e s).nf = s.nf := rfl
@[simp] theorem emit_cnt (e : Event) (s : State) : (emit e s).cnt = s.cnt := rfl
@[simp] theorem emit_idx (e : Event) (s : State) : (emit e s).idx = s.idx := rfl
@[simp] theorem emit_rb (e : Event) (s : State) : (emit e s).rb = s.rb := rfl
@[simp] theorem emit_halted (e : Event) (s : State) : (emit e s).halted = s.halted := rfl
@[simp] theorem emit_unkSeen (e : Event) (s : State) : (emit e s).unkSeen = s.unkSeen := rfl
@[simp] theorem emit_pos (e : Event) (s : State) : (emit e s).pos = s.pos := rfl
@[simp] theorem emit_ev (e : Event) (s : State) : (emit e s).ev = s.ev ++ [e] := rfl
@[simp] theorem emit_tx (e : Event) (s : State) : (emit e s).tx = s.tx := rfl
@[simp] theorem emit_turns (e : Event) (s : State) : (emit e s).turns = s.turns := rfl

/-! ### txWrite -/

@[simp] theorem txWrite_buf (bs : List Byte) (s : State) : (txWrite bs s).buf = s.buf := rfl
@[simp] theorem txWrite_wait (bs : List Byte) (s : State) : (txWrite bs s).wait = s.wait := rfl
@[simp] theorem txWrite_closed (bs : List Byte) (s : State) : (txWrite bs s).closed = s.closed := rfl
@[simp] theorem txWrite_phase (bs : List Byte) (s : State) : (txWrite bs s).phase = s.phase := rfl
@[simp] theorem txWrite_b0 (bs : List Byte) (s : State) : (txWrite bs s).b0 = s.b0 := rfl
@[simp] theorem txWrite_b1 (bs : List Byte) (s : State) : (txWrite bs s).b1 = s.b1 := rfl
@[simp] theorem txWrite_f (bs : List Byte) (s : State) : (txWrite bs s).f = s.f := rfl
@[simp] theorem txWrite_nf (bs : List Byte) (s : State) : (txWrite bs s).nf = s.nf := rfl
@[simp] theorem txWrite_cnt (bs : List Byte) (s : State) : (txWrite bs s).cnt = s.cnt := rfl
@[simp] theorem txWrite_idx (bs : List Byte) (s : State) : (txWrite bs s).idx = s.idx := rfl
@[simp] theorem txWrite_rb (bs : List Byte) (s : State) : (txWrite bs s).rb = s.rb := rfl
@[simp] theorem txWrite_halted (bs : List Byte) (s : State) : (txWrite bs s).halted = s.halted := rfl
@[simp] theorem txWrite_unkSeen (bs : List Byte) (s : State) : (txWrite bs s).unkSeen = s.unkSeen := rfl
@[simp] theorem txWrite_pos (bs : List Byte) (s : State) : (txWrite bs s).pos = s.pos := rfl
@[simp] theorem txWrite_ev (bs : List Byte) (s : State) : (txWrite bs s).ev = s.ev := rfl
@[simp] theorem txWrite_tx (bs : List Byte) (s : State) : (txWrite bs s).tx = s.tx ++ bs := rfl
@[simp] theorem txWrite_turns (bs : List Byte) (s : State) : (txWrite bs s).turns = s.turns := rfl

/-! ### latchFirst -/

@[simp] theorem latchFirst_buf (b : Byte) (s : State) : (latchFirst b s).buf = s.buf := rfl
@[simp] theorem latchFirst_wait (b : Byte) (s : State) : (latchFirst b s).wait = s.wait := rfl
@[simp] theorem latchFirst_closed (b : Byte) (s : State) : (latchFirst b s).closed = s.closed := rfl
@[simp] theorem latchFirst_phase (b : Byte) (s : State) : (latchFirst b s).phase = s.phase := rfl
@[simp] theorem latchFirst_b0 (b : Byte) (s : State) : (latchFirst b s).b0 = b := rfl
@[simp] theorem latchFirst_b1 (b : Byte) (s : State) : (latchFirst b s).b1 = s.b1 := rfl
@[simp] theorem latchFirst_f (b : Byte) (s : State) : (latchFirst b s).f = s.f := rfl
@[simp] theorem latchFirst_nf (b : Byte) (s : State) : (latchFirst b s).nf = s.nf := rfl
@[simp] theorem latchFirst_cnt (b : Byte) (s : State) : (latchFirst b s).cnt = s.cnt := rfl
@[simp] theorem latchFirst_idx (b : Byte) (s : State) : (latchFirst b s).idx = s.idx := rfl
@[simp] theorem latchFirst_rb (b : Byte) (s : State) : (latchFirst b s).rb = s.rb := rfl
@[simp] theorem latchFirst_halted (b : Byte) (s : State) : (latchFirst b s).halted = s.halted := rfl
@[simp] theorem latchFirst_unkSeen (b : Byte) (s : State) : (latchFirst b s).unkSeen = s.unkSeen := rfl
@[simp] theorem latchFirst_pos (b : Byte) (s : State) : (latchFirst b s).pos = s.pos := rfl
@[simp] theorem latchFirst_ev (b : Byte) (s : State) : (latchFirst b s).ev = s.ev := rfl
@[simp] theorem latchFirst_tx (b : Byte) (s : State) : (latchFirst b s).tx = s.tx := rfl
@[simp] theorem latchFirst_turns (b : Byte) (s : State) : (latchFirst b s).turns = s.turns := rfl

/-! ### latchSecond -/

@[simp] theorem latchSecond_buf (b : Byte) (s : State) : (latchSecond b s).buf = s.buf := rfl
@[simp] theorem latchSecond_wait (b : Byte) (s : State) : (latchSecond b s).wait = s.wait := rfl
@[simp] theorem latchSecond_closed (b : Byte) (s : State) : (latchSecond b s).closed = s.closed := rfl
@[simp] theorem latchSecond_phase (b : Byte) (s : State) : (latchSecond b s).phase = s.phase := rfl
@[simp] theorem latchSecond_b0 (b : Byte) (s : State) : (latchSecond b s).b0 = s.b0 := rfl
@[simp] theorem latchSecond_b1 (b : Byte) (s : State) : (latchSecond b s).b1 = b := rfl
@[simp] theorem latchSecond_f (b : Byte) (s : State) : (latchSecond b s).f = s.f := rfl
@[simp] theorem latchSecond_nf (b : Byte) (s : State) : (latchSecond b s).nf = 0 := rfl
@[simp] theorem latchSecond_cnt (b : Byte) (s : State) : (latchSecond b s).cnt = s.cnt := rfl
@[simp] theorem latchSecond_idx (b : Byte) (s : State) : (latchSecond b s).idx = s.idx := rfl
@[simp] theorem latchSecond_rb (b : Byte) (s : State) : (latchSecond b s).rb = s.rb := rfl
@[simp] theorem latchSecond_halted (b : Byte) (s : State) : (latchSecond b s).halted = s.halted := rfl
@[simp] theorem latchSecond_unkSeen (b : Byte) (s : State) : (latchSecond b s).unkSeen = s.unkSeen := rfl
@[simp] theorem latchSecond_pos (b : Byte) (s : State) : (latchSecond b s).pos = s.pos := rfl
@[simp] theorem latchSecond_ev (b : Byte) (s : State) : (latchSecond b s).ev = s.ev := rfl
@[simp] theorem latchSecond_tx (b : Byte) (s : State) : (latchSecond b s).tx = s.tx := rfl
@[simp] theorem latchSecond_turns (b : Byte) (s : State) : (latchSecond b s).turns = s.turns := rfl

/-! ### latchRaster -/

@[simp] theorem latchRaster_buf (b : Byte) (s : State) : (latchRaster b s).buf = s.buf := rfl
@[simp] theorem latchRaster_wait (b : Byte) (s : State) : (latchRaster b s).wait = s.wait := rfl
@[simp] theorem latchRaster_closed (b : Byte) (s : State) : (latchRaster b s).closed = s.closed := rfl
@[simp] theorem latchRaster_phase (b : Byte) (s : State) : (latchRaster b s).phase = s.phase := rfl
@[simp] theorem latchRaster_b0 (b : Byte) (s : State) : (latchRaster b s).b0 = s.b0 := rfl
@[simp] theorem latchRaster_b1 (b : Byte) (s : State) : (latchRaster b s).b1 = s.b1 := rfl
@[simp] theorem latchRaster_f (b : Byte) (s : State) : (latchRaster b s).f = s.f := rfl
@[simp] theorem latchRaster_nf (b : Byte) (s : State) : (latchRaster b s).nf = s.nf := rfl
@[simp] theorem latchRaster_cnt (b : Byte) (s : State) : (latchRaster b s).cnt = s.cnt - 1 := rfl
@[simp] theorem latchRaster_idx (b : Byte) (s : State) : (latchRaster b s).idx = s.idx + 1 := rfl
@[simp] theorem latchRaster_rb (b : Byte) (s : State) : (latchRaster b s).rb = s.rb.write s.idx.toNat b := rfl
@[simp] theorem latchRaster_halted (b : Byte) (s : State) : (latchRaster b s).halted = s.halted := rfl
@[simp] theorem latchRaster_unkSeen (b : Byte) (s : State) : (latchRaster b s).unkSeen = s.unkSeen := rfl
@[simp] theorem latchRaster_pos (b : Byte) (s : State) : (latchRaster b s).pos = s.pos := rfl
@[simp] theorem latchRaster_ev (b : Byte) (s : State) : (latchRaster b s).ev = s.ev := rfl
@[simp] theorem latchRaster_tx (b : Byte) (s : State) : (latchRaster b s).tx = s.tx := rfl
@[simp] theorem latchRaster_turns (b : Byte) (s : State) : (latchRaster b s).turns = s.turns := rfl

/-! ### loadCounters -/

@[simp] theorem loadCounters_buf (s : State) : (loadCounters s).buf = s.buf := rfl
@[simp] theorem loadCounters_wait (s : State) : (loadCounters s).wait = s.wait := rfl
@[simp] theorem loadCounters_closed (s : State) : (loadCounters s).closed = s.closed := rfl
@[simp] theorem loadCounters_phase (s : State) : (loadCounters s).phase = s.phase := rfl
@[simp] theorem loadCounters_b0 (s : State) : (loadCounters s).b0 = s.b0 := rfl
@[simp] theorem loadCounters_b1 (s : State) : (loadCounters s).b1 = s.b1 := rfl
@[simp] theorem loadCounters_f (s : State) : (loadCounters s).f = s.f := rfl
@[simp] theorem loadCounters_nf (s : State) : (loadCounters s).nf = s.nf := rfl
@[simp] theorem loadCounters_cnt (s : State) : (loadCounters s).cnt = BitVec.ofNat 32 (rasterBytes (width s) (height s)) := rfl
@[simp] theorem loadCounters_idx (s : State) : (loadCounters s).idx = 0 := rfl
@[simp] theorem loadCounters_rb (s : State) : (loadCounters s).rb = s.rb := rfl
@[simp] theorem loadCounters_halted (s : State) : (loadCounters s).halted = s.halted := rfl
@[simp] theorem loadCounters_unkSeen (s : State) : (loadCounters s).unkSeen = s.unkSeen := rfl
@[simp] theorem loadCounters_pos (s : State) : (loadCounters s).pos = s.pos := rfl
@[simp] theorem loadCounters_ev (s : State) : (loadCounters s).ev = s.ev := rfl
@[simp] theorem loadCounters_tx (s : State) : (loadCounters s).tx = s.tx := rfl
@[simp] theorem loadCounters_turns (s : State) : (loadCounters s).turns = s.turns := rfl

/-! ### await -/

@[simp] theorem await_buf (p : Phase) (s : State) : (await p s).buf = s.buf := rfl
@[simp] theorem await_wait (p : Phase) (s : State) : (await p s).wait = s.wait := rfl
@[simp] theorem await_closed (p : Phase) (s : State) : (await p s).closed = s.closed := rfl
@[simp] theorem await_phase (p : Phase) (s : State) : (await p s).phase = p := rfl
@[simp] theorem await_b0 (p : Phase) (s : State) : (await p s).b0 = s.b0 := rfl
@[simp] theorem await_b1 (p : Phase) (s : State) : (await p s).b1 = s.b1 := rfl
@[simp] theorem await_f (p : Phase) (s : State) : (await p s).f = s.f := rfl
@[simp] theorem await_nf (p : Phase) (s : State) : (await p s).nf = s.nf := rfl
@[simp] theorem await_cnt (p : Phase) (s : State) : (await p s).cnt = s.cnt := rfl
@[simp] theorem await_idx (p : Phase) (s : State) : (await p s).idx = s.idx := rfl
@[simp] theorem await_rb (p : Phase) (s : State) : (await p s).rb = s.rb := rfl
@[simp] theorem await_halted (p : Phase) (s : State) : (await p s).halted = s.halted := rfl
@[simp] theorem await_unkSeen (p : Phase) (s : State) : (await p s).unkSeen = s.unkSeen := rfl
@[simp] theorem await_pos (p : Phase) (s : State) : (await p s).pos = s.pos := rfl
@[simp] theorem await_ev (p : Phase) (s : State) : (await p s).ev = s.ev := rfl
@[simp] theorem await_tx (p : Phase) (s : State) : (await p s).tx = s.tx := rfl
@[simp] theorem await_turns (p : Phase) (s : State) : (await p s).turns = s.turns := rfl

/-! ### retire -/

@[simp] theorem retire_buf (s : State) : (retire s).buf = s.buf := rfl
@[simp] theorem retire_wait (s : State) : (retire s).wait = s.wait := rfl
@[simp] theorem retire_closed (s : State) : (retire s).closed = s.closed := rfl
@[simp] theorem retire_phase (s : State) : (retire s).phase = .op0 := rfl
@[simp] theorem retire_b0 (s : State) : (retire s).b0 = s.b0 := rfl
@[simp] theorem retire_b1 (s : State) : (retire s).b1 = s.b1 := rfl
@[simp] theorem retire_f (s : State) : (retire s).f = s.f := rfl
@[simp] theorem retire_nf (s : State) : (retire s).nf = s.nf := rfl
@[simp] theorem retire_cnt (s : State) : (retire s).cnt = s.cnt := rfl
@[simp] theorem retire_idx (s : State) : (retire s).idx = s.idx := rfl
@[simp] theorem retire_rb (s : State) : (retire s).rb = s.rb := rfl
@[simp] theorem retire_halted (s : State) : (retire s).halted = s.halted := rfl
@[simp] theorem retire_unkSeen (s : State) : (retire s).unkSeen = s.unkSeen := rfl
@[simp] theorem retire_pos (s : State) : (retire s).pos = s.pos := rfl
@[simp] theorem retire_ev (s : State) : (retire s).ev = s.ev := rfl
@[simp] theorem retire_tx (s : State) : (retire s).tx = s.tx := rfl
@[simp] theorem retire_turns (s : State) : (retire s).turns = s.turns := rfl

/-! ### consume -/

@[simp] theorem consume_buf (s : State) : (consume s).buf = s.buf.tail := rfl
@[simp] theorem consume_wait (s : State) : (consume s).wait = s.wait := rfl
@[simp] theorem consume_closed (s : State) : (consume s).closed = s.closed := rfl
@[simp] theorem consume_phase (s : State) : (consume s).phase = s.phase := rfl
@[simp] theorem consume_b0 (s : State) : (consume s).b0 = s.b0 := rfl
@[simp] theorem consume_b1 (s : State) : (consume s).b1 = s.b1 := rfl
@[simp] theorem consume_f (s : State) : (consume s).f = s.f := rfl
@[simp] theorem consume_nf (s : State) : (consume s).nf = s.nf := rfl
@[simp] theorem consume_cnt (s : State) : (consume s).cnt = s.cnt := rfl
@[simp] theorem consume_idx (s : State) : (consume s).idx = s.idx := rfl
@[simp] theorem consume_rb (s : State) : (consume s).rb = s.rb := rfl
@[simp] theorem consume_halted (s : State) : (consume s).halted = s.halted := rfl
@[simp] theorem consume_unkSeen (s : State) : (consume s).unkSeen = s.unkSeen := rfl
@[simp] theorem consume_pos (s : State) : (consume s).pos = s.pos + 1 := rfl
@[simp] theorem consume_ev (s : State) : (consume s).ev = s.ev := rfl
@[simp] theorem consume_tx (s : State) : (consume s).tx = s.tx := rfl
@[simp] theorem consume_turns (s : State) : (consume s).turns = s.turns := rfl

/-! ### latchField -/

@[simp] theorem latchField_buf (b : Byte) (s : State) : (latchField b s).buf = s.buf := by unfold latchField; split <;> rfl
@[simp] theorem latchField_wait (b : Byte) (s : State) : (latchField b s).wait = s.wait := by unfold latchField; split <;> rfl
@[simp] theorem latchField_closed (b : Byte) (s : State) : (latchField b s).closed = s.closed := by unfold latchField; split <;> rfl
@[simp] theorem latchField_phase (b : Byte) (s : State) : (latchField b s).phase = s.phase := by unfold latchField; split <;> rfl
@[simp] theorem latchField_b0 (b : Byte) (s : State) : (latchField b s).b0 = s.b0 := by unfold latchField; split <;> rfl
@[simp] theorem latchField_b1 (b : Byte) (s : State) : (latchField b s).b1 = s.b1 := by unfold latchField; split <;> rfl
@[simp] theorem latchField_cnt (b : Byte) (s : State) : (latchField b s).cnt = s.cnt := by unfold latchField; split <;> rfl
@[simp] theorem latchField_idx (b : Byte) (s : State) : (latchField b s).idx = s.idx := by unfold latchField; split <;> rfl
@[simp] theorem latchField_rb (b : Byte) (s : State) : (latchField b s).rb = s.rb := by unfold latchField; split <;> rfl
@[simp] theorem latchField_halted (b : Byte) (s : State) : (latchField b s).halted = s.halted := by unfold latchField; split <;> rfl
@[simp] theorem latchField_unkSeen (b : Byte) (s : State) : (latchField b s).unkSeen = s.unkSeen := by unfold latchField; split <;> rfl
@[simp] theorem latchField_pos (b : Byte) (s : State) : (latchField b s).pos = s.pos := by unfold latchField; split <;> rfl
@[simp] theorem latchField_ev (b : Byte) (s : State) : (latchField b s).ev = s.ev := by unfold latchField; split <;> rfl
@[simp] theorem latchField_tx (b : Byte) (s : State) : (latchField b s).tx = s.tx := by unfold latchField; split <;> rfl
@[simp] theorem latchField_turns (b : Byte) (s : State) : (latchField b s).turns = s.turns := by unfold latchField; split <;> rfl

/-! ### push -/

@[simp] theorem push_buf (b : Byte) (s : State) : (push b s).buf = if s.closed then s.buf else s.buf ++ [b] := by unfold push; split <;> simp_all
@[simp] theorem push_wait (b : Byte) (s : State) : (push b s).wait = if s.closed then s.wait else false := by unfold push; split <;> simp_all
@[simp] theorem push_closed (b : Byte) (s : State) : (push b s).closed = s.closed := by unfold push; split <;> rfl
@[simp] theorem push_phase (b : Byte) (s : State) : (push b s).phase = s.phase := by unfold push; split <;> rfl
@[simp] theorem push_b0 (b : Byte) (s : State) : (push b s).b0 = s.b0 := by unfold push; split <;> rfl
@[simp] theorem push_b1 (b : Byte) (s : State) : (push b s).b1 = s.b1 := by unfold push; split <;> rfl
@[simp] theorem push_f (b : Byte) (s : State) : (push b s).f = s.f := by unfold push; split <;> rfl
@[simp] theorem push_nf (b : Byte) (s : State) : (push b s).nf = s.nf := by unfold push; split <;> rfl
@[simp] theorem push_cnt (b : Byte) (s : State) : (push b s).cnt = s.cnt := by unfold push; split <;> rfl
@[simp] theorem push_idx (b : Byte) (s : State) : (push b s).idx = s.idx := by unfold push; split <;> rfl
@[simp] theorem push_rb (b : Byte) (s : State) : (push b s).rb = s.rb := by unfold push; split <;> rfl
@[simp] theorem push_halted (b : Byte) (s : State) : (push b s).halted = s.halted := by unfold push; split <;> rfl
@[simp] theorem push_unkSeen (b : Byte) (s : State) : (push b s).unkSeen = s.unkSeen := by unfold push; split <;> rfl
@[simp] theorem push_pos (b : Byte) (s : State) : (push b s).pos = s.pos := by unfold push; split <;> rfl
@[simp] theorem push_ev (b : Byte) (s : State) : (push b s).ev = s.ev := by unfold push; split <;> rfl
@[simp] theorem push_tx (b : Byte) (s : State) : (push b s).tx = s.tx := by unfold push; split <;> rfl
@[simp] theorem push_turns (b : Byte) (s : State) : (push b s).turns = s.turns := by unfold push; split <;> rfl

/-! ### close -/

@[simp] theorem close_buf (s : State) : (close s).buf = s.buf := by unfold close; split <;> simp_all
@[simp] theorem close_wait (s : State) : (close s).wait = if s.closed then s.wait else false := by unfold close; split <;> simp_all
@[simp] theorem close_closed (s : State) : (close s).closed = true := by unfold close; split <;> simp_all
@[simp] theorem close_phase (s : State) : (close s).phase = s.phase := by unfold close; split <;> simp_all
@[simp] theorem close_b0 (s : State) : (close s).b0 = s.b0 := by unfold close; split <;> simp_all
@[simp] theorem close_b1 (s : State) : (close s).b1 = s.b1 := by unfold close; split <;> simp_all
@[simp] theorem close_f (s : State) : (close s).f = s.f := by unfold close; split <;> simp_all
@[simp] theorem close_nf (s : State) : (close s).nf = s.nf := by unfold close; split <;> simp_all
@[simp] theorem close_cnt (s : State) : (close s).cnt = s.cnt := by unfold close; split <;> simp_all
@[simp] theorem close_idx (s : State) : (close s).idx = s.idx := by unfold close; split <;> simp_all
@[simp] theorem close_rb (s : State) : (close s).rb = s.rb := by unfold close; split <;> simp_all
@[simp] theorem close_halted (s : State) : (close s).halted = s.halted := by unfold close; split <;> simp_all
@[simp] theorem close_unkSeen (s : State) : (close s).unkSeen = s.unkSeen := by unfold close; split <;> simp_all
@[simp] theorem close_pos (s : State) : (close s).pos = s.pos := by unfold close; split <;> simp_all
@[simp] theorem close_ev (s : State) : (close s).ev = s.ev := by unfold close; split <;> simp_all
@[simp] theorem close_tx (s : State) : (close s).tx = s.tx := by unfold close; split <;> simp_all
@[simp] theorem close_turns (s : State) : (close s).turns = s.turns := by unfold close; split <;> simp_all

/-! ### raise -/

@[simp] theorem raise_buf (c : Condition) (s : State) : (raise c s).buf = s.buf := by cases c <;> rfl
@[simp] theorem raise_closed (c : Condition) (s : State) : (raise c s).closed = s.closed := by cases c <;> rfl
@[simp] theorem raise_b0 (c : Condition) (s : State) : (raise c s).b0 = s.b0 := by cases c <;> rfl
@[simp] theorem raise_b1 (c : Condition) (s : State) : (raise c s).b1 = s.b1 := by cases c <;> rfl
@[simp] theorem raise_f (c : Condition) (s : State) : (raise c s).f = s.f := by cases c <;> rfl
@[simp] theorem raise_nf (c : Condition) (s : State) : (raise c s).nf = s.nf := by cases c <;> rfl
@[simp] theorem raise_cnt (c : Condition) (s : State) : (raise c s).cnt = s.cnt := by cases c <;> rfl
@[simp] theorem raise_idx (c : Condition) (s : State) : (raise c s).idx = s.idx := by cases c <;> rfl
@[simp] theorem raise_rb (c : Condition) (s : State) : (raise c s).rb = s.rb := by cases c <;> rfl
@[simp] theorem raise_pos (c : Condition) (s : State) : (raise c s).pos = s.pos := by cases c <;> rfl
@[simp] theorem raise_tx (c : Condition) (s : State) : (raise c s).tx = s.tx := by cases c <;> rfl
@[simp] theorem raise_turns (c : Condition) (s : State) : (raise c s).turns = s.turns := by cases c <;> rfl

/-! ### latchField and raise, case by case -/

theorem latchField_nf {b : Byte} {s : State} (h : s.nf.val < 6) : (latchField b s).nf.val = s.nf.val + 1 := by
  simp [latchField, h]

theorem latchField_f {b : Byte} {s : State} (h : s.nf.val < 6) : (latchField b s).f = s.f.set s.nf.val b h := by
  simp [latchField, h]

@[simp] theorem raise_starvation (s : State) : raise .starvation s = { s with wait := true } := rfl

@[simp] theorem raise_unknownOpcode (s : State) : raise .unknownOpcode s = { s with unkSeen := true } := rfl

@[simp] theorem raise_outOfRangeIndex (n : Byte) (s : State) :
    raise (.outOfRangeIndex n) s = emit (.selectCharset n .reserved) s := rfl

@[simp] theorem raise_endOfStream (s : State) :
    raise .endOfStream s = { s with halted := true, phase := .halt } := rfl

/-! ### What the operands are read from -/

theorem width_congr {s t : State} (h : s.f = t.f) : width s = width t := by simp [width, h]

theorem height_congr {s t : State} (h : s.f = t.f) : height s = height t := by simp [height, h]

theorem opcode_congr {s t : State} (h0 : s.b0 = t.b0) (h1 : s.b1 = t.b1) : opcode s = opcode t := by
  simp [opcode, h0, h1]

end Sys2Proof.Machine
end

