-- ==== Sys2Proof/Laws/Exec.lean ====
section
/-! SUPPORT. What a handler does, said once for all commands, and the bits of a byte. -/

namespace Sys2Proof.Machine

theorem bit_eq_getLsbD (b : Byte) (k : Nat) : bit b k = b.getLsbD k := by
  simp [bit, BitVec.getLsbD, Nat.testBit_eq_decide_div_mod_eq]
  exact beq_eq_decide _ _

theorem charsetLabel_of_lt {n : Byte} (h : n.toNat < 14) : charsetLabel n = some (.name ⟨n.toNat, h⟩) := by
  simp [charsetLabel, h]

theorem charsetLabel_of_ge {n : Byte} (h : 14 ≤ n.toNat) : charsetLabel n = none := by
  simp [charsetLabel, Nat.not_lt.2 h]

/-- A handler appends its command's events and reply, sets `UNKSEEN` for an unknown opcode, and ends in `OP0`. -/
theorem exec_eq (i : Instr) (s : State) :
    exec i s = .next { s with
      phase := .op0, ev := s.ev ++ eventsOf i, tx := s.tx ++ replyOf i, unkSeen := s.unkSeen || isUnknown i } := by
  cases i with
  | charset n =>
    simp only [exec, execCharset, eventsOf, replyOf, isUnknown, List.append_nil, Bool.or_false]
    cases charsetLabel n <;> rfl
  | idle | skip2 => simp [exec, execIdle, execSkip2, retire, eventsOf, replyOf, isUnknown]
  | unk => simp [exec, execUnk, retire, eventsOf, replyOf, isUnknown]
  | buzz | pmode | init | feed | reverse | codepage | units | cut | cutf | status | raster =>
    simp [exec, execBuzz, execPmode, execInit, execFeed, execReverse, execCodepage, execUnits, execCut, execCutf,
      execStatus, execRaster, retire, emit, txWrite, eventsOf, replyOf, isUnknown, printModeOf, statusEnableOf, isOn,
      Config.ack]

/-- The next state a handler answers. -/
theorem eq_of_exec {i : Instr} {s t : State} (h : exec i s = .next t) :
    t = { s with
      phase := .op0, ev := s.ev ++ eventsOf i, tx := s.tx ++ replyOf i, unkSeen := s.unkSeen || isUnknown i } := by
  rw [exec_eq] at h
  exact (Host.Outcome.next.inj h).symm

end Sys2Proof.Machine
end

