-- ==== Sys2Proof/Laws/Memory.lean ====
section
/-! SUPPORT. The raster buffer: read after write, the canonical form and its preservation, runs of cells. -/

namespace Sys2Proof.Machine

/-- A read after a write: the value written at the index written, the old one at every other. -/
theorem Memory.read_write (m : Memory) (i j : Nat) (v : Byte) :
    (m.write i v).read j = if j = i then some v else m.read j := by
  induction m with
  | nil => simp [write, read, eq_comm]
  | cons c rest ih =>
    obtain ⟨a, w⟩ := c
    unfold write
    split
    · simp [read, eq_comm]
    · split
      · subst_vars; by_cases h : j = a <;> simp [read, h, eq_comm]
      · unfold read
        split
        · rw [if_neg (by omega)]
        · exact ih

@[simp] theorem Memory.read_write_same (m : Memory) (i : Nat) (v : Byte) : (m.write i v).read i = some v := by
  simp [Memory.read_write]

theorem Memory.read_write_other (m : Memory) {i j : Nat} (v : Byte) (h : j ≠ i) :
    (m.write i v).read j = m.read j := by
  simp [Memory.read_write, h]

/-- Every cell after a write is the written one or an old one. -/
theorem Memory.mem_write {m : Memory} {i : Nat} {v : Byte} {c : Host.Cell} (h : c ∈ m.write i v) :
    c = (i, v) ∨ c ∈ m := by
  induction m with
  | nil => simpa [write] using h
  | cons d rest ih =>
    unfold write at h
    split at h
    · simpa using h
    · split at h
      · simp only [List.mem_cons] at h ⊢; tauto
      · simp only [List.mem_cons] at h ⊢; tauto

/-- The canonical form as a property of the list: indices rise from cell to cell. -/
theorem Memory.wf_iff (m : Memory) : m.wf = true ↔ m.Pairwise (fun c d => c.1 < d.1) := by
  induction m with
  | nil => simp [wf]
  | cons c rest ih =>
    obtain ⟨a, v⟩ := c
    match rest, ih with
    | [], _ => simp [wf]
    | (b, w) :: rest', ih =>
      rw [wf, Bool.and_eq_true, decide_eq_true_eq, ih, List.pairwise_cons (a := (a, v))]
      constructor
      · rintro ⟨hab, hp⟩
        refine ⟨fun d hd => ?_, hp⟩
        rcases List.mem_cons.1 hd with rfl | hd
        · exact hab
        · exact lt_trans hab ((List.pairwise_cons.1 hp).1 d hd)
      · rintro ⟨hall, hp⟩
        exact ⟨hall _ (List.mem_cons_self ..), hp⟩

/-- A write keeps the canonical form. -/
theorem Memory.write_wf {m : Memory} (i : Nat) (v : Byte) (h : m.wf = true) : (m.write i v).wf = true := by
  rw [wf_iff] at h ⊢
  induction m with
  | nil => simp [write]
  | cons c rest ih =>
    obtain ⟨a, w⟩ := c
    have hc := List.pairwise_cons.1 h
    unfold write
    split
    · refine List.pairwise_cons.2 ⟨fun d hd => ?_, h⟩
      rcases List.mem_cons.1 hd with rfl | hd
      · assumption
      · exact lt_trans ‹_› (hc.1 d hd)
    · split
      · subst_vars; exact List.pairwise_cons.2 ⟨hc.1, hc.2⟩
      · refine List.pairwise_cons.2 ⟨fun d hd => ?_, ih hc.2⟩
        rcases Memory.mem_write hd with rfl | hd
        · simp only; omega
        · exact hc.1 d hd

/-- A run of cells, one by one. -/
theorem Memory.readRange_eq_some_iff {m : Memory} {i n : Nat} {vs : List Byte} :
    m.readRange i n = some vs ↔ vs.length = n ∧ ∀ j, j < n → m.read (i + j) = vs[j]? := by
  induction n generalizing i vs with
  | zero =>
    simp only [readRange, Option.some.injEq, Nat.not_lt_zero, false_implies, implies_true, and_true]
    rw [List.length_eq_zero_iff, eq_comm]
  | succ n ih =>
    unfold readRange
    constructor
    · intro h
      split at h
      · rename_i v ws hv hws
        cases h
        obtain ⟨hl, hr⟩ := ih.1 hws
        refine ⟨by simp [hl], fun j hj => ?_⟩
        cases j with
        | zero => simpa using hv
        | succ j => simpa [Nat.add_assoc, Nat.add_comm 1 j] using hr j (by omega)
      · cases h
    · rintro ⟨hl, hr⟩
      cases vs with
      | nil => simp at hl
      | cons v ws =>
        have h0 : m.read i = some v := by simpa using hr 0 (by omega)
        have ht : m.readRange (i + 1) n = some ws := ih.2 ⟨by simpa using hl, fun j hj => by
          simpa [Nat.add_assoc, Nat.add_comm 1 j] using hr (j + 1) (by omega)⟩
        simp [h0, ht]

/-- Writing the cell after a written run makes the run one longer. -/
theorem Memory.readRange_write_end {m : Memory} {n : Nat} {vs : List Byte} (v : Byte)
    (h : m.readRange 0 n = some vs) : (m.write n v).readRange 0 (n + 1) = some (vs ++ [v]) := by
  obtain ⟨hl, hr⟩ := readRange_eq_some_iff.1 h
  refine readRange_eq_some_iff.2 ⟨by simp [hl], fun j hj => ?_⟩
  rw [Nat.zero_add, read_write]
  split
  · rename_i hj; rw [hj, ← hl]; simp
  · rw [List.getElem?_append_left (by omega), ← hr j (by omega), Nat.zero_add]

end Sys2Proof.Machine
end

