-- ==== Sys2Proof/Laws/Decoder.lean ====
section
/-! SUPPORT. What one decoder step, one `delta` and one machine step can do, said once. -/

namespace Sys2Proof.Machine

/-! ### A step and whose turn it is -/

theorem step_of_no_turns {s : State} (h : s.turns = []) : step s = decoderStep s := by
  simp [step, h]

theorem step_push {s : State} {b : Byte} {rest : List Move} (h : s.turns = .push b :: rest) :
    step s = .next (push b { s with turns := rest }) := by
  simp [step, move, h]

theorem step_close {s : State} {rest : List Move} (h : s.turns = .close :: rest) :
    step s = .next (close { s with turns := rest }) := by
  simp [step, move, h]

theorem step_decode {s : State} {rest : List Move} (h : s.turns = .decode :: rest) :
    step s = decoderStep { s with turns := rest } := by
  simp [step, move, h]

/-! ### A decoder step and the queue -/

theorem nextByte_byte {s : State} {b : Byte} {rest : List Byte} (h : s.buf = b :: rest) :
    nextByte s = .byte b (consume s) := by
  simp [nextByte, consume, h]

theorem decoderStep_halted {s : State} (h : s.halted = true) : decoderStep s = .next s := by
  simp [decoderStep, h]

theorem decoderStep_byte {s : State} {b : Byte} {rest : List Byte} (hr : s.halted = false) (h : s.buf = b :: rest) :
    decoderStep s = delta b (consume s) := by
  simp [decoderStep, hr, nextByte_byte h]

theorem decoderStep_eos {s : State} (hr : s.halted = false) (h : s.buf = []) (hc : s.closed = true) :
    decoderStep s = .next { s with halted := true, phase := .halt } := by
  simp [decoderStep, hr, nextByte, h, hc]

theorem decoderStep_starved {s : State} (hr : s.halted = false) (h : s.buf = []) (hc : s.closed = false) :
    decoderStep s = .next { s with wait := true } := by
  simp [decoderStep, hr, nextByte, h, hc]

/-- The four things a decoder step can be. -/
theorem decoderStep_cases (s : State) :
    (s.halted = true ∧ decoderStep s = .next s) ∨
    (s.halted = false ∧ ∃ b rest, s.buf = b :: rest ∧ decoderStep s = delta b (consume s)) ∨
    (s.halted = false ∧ s.buf = [] ∧ s.closed = true ∧
      decoderStep s = .next { s with halted := true, phase := .halt }) ∨
    (s.halted = false ∧ s.buf = [] ∧ s.closed = false ∧ decoderStep s = .next { s with wait := true }) := by
  rcases Bool.eq_false_or_eq_true s.halted with hr | hr
  · exact .inl ⟨hr, decoderStep_halted hr⟩
  · rcases hb : s.buf with _ | ⟨b, rest⟩
    · rcases Bool.eq_false_or_eq_true s.closed with hc | hc
      · exact .inr (.inr (.inl ⟨hr, rfl, hc, by rw [decoderStep_eos hr hb hc, ← hb]⟩))
      · exact .inr (.inr (.inr ⟨hr, rfl, hc, by rw [decoderStep_starved hr hb hc, ← hb]⟩))
    · exact .inr (.inl ⟨hr, b, rest, rfl, decoderStep_byte hr hb⟩)

/-! ### latched: storing a byte leaves everything but the latches, the counters and the raster buffer -/

@[simp] theorem latched_buf (b : Byte) (s : State) : (latched b s).buf = s.buf := by
  unfold latched; split <;> first | rfl | (dsimp only; split <;> simp) | (split <;> simp)
@[simp] theorem latched_wait (b : Byte) (s : State) : (latched b s).wait = s.wait := by
  unfold latched; split <;> first | rfl | (dsimp only; split <;> simp) | (split <;> simp)
@[simp] theorem latched_closed (b : Byte) (s : State) : (latched b s).closed = s.closed := by
  unfold latched; split <;> first | rfl | (dsimp only; split <;> simp) | (split <;> simp)
@[simp] theorem latched_phase (b : Byte) (s : State) : (latched b s).phase = s.phase := by
  unfold latched; split <;> first | rfl | (dsimp only; split <;> simp) | (split <;> simp)
@[simp] theorem latched_halted (b : Byte) (s : State) : (latched b s).halted = s.halted := by
  unfold latched; split <;> first | rfl | (dsimp only; split <;> simp) | (split <;> simp)
@[simp] theorem latched_unkSeen (b : Byte) (s : State) : (latched b s).unkSeen = s.unkSeen := by
  unfold latched; split <;> first | rfl | (dsimp only; split <;> simp) | (split <;> simp)
@[simp] theorem latched_pos (b : Byte) (s : State) : (latched b s).pos = s.pos := by
  unfold latched; split <;> first | rfl | (dsimp only; split <;> simp) | (split <;> simp)
@[simp] theorem latched_ev (b : Byte) (s : State) : (latched b s).ev = s.ev := by
  unfold latched; split <;> first | rfl | (dsimp only; split <;> simp) | (split <;> simp)
@[simp] theorem latched_tx (b : Byte) (s : State) : (latched b s).tx = s.tx := by
  unfold latched; split <;> first | rfl | (dsimp only; split <;> simp) | (split <;> simp)
@[simp] theorem latched_turns (b : Byte) (s : State) : (latched b s).turns = s.turns := by
  unfold latched; split <;> first | rfl | (dsimp only; split <;> simp) | (split <;> simp)

/-! ### delta -/

/-- The commands a byte can complete, and where their operands come from. -/
def Completes (b : Byte) (s : State) (i : Instr) : Prop :=
  (s.phase = .op0 ∧ (b = 0x00 ∧ i = .idle ∨ b = 0x1E ∧ i = .buzz)) ∨
  (s.phase = .op1 ∧ lookup s.b0 b = none ∧ i = .unk s.b0 b) ∨
  (s.phase ≠ .op0 ∧ s.phase ≠ .halt ∧ ∃ op data, i = operands op data (latched b s) ∧
    (op = .raster → data.length = rasterBytes (width (latched b s)) (height (latched b s))))

theorem loadCounters_cnt_toNat (s : State) :
    (loadCounters s).cnt.toNat = rasterBytes (width s) (height s) := by
  have := rasterBytes_le (width s) (height s)
  simp only [loadCounters_cnt, BitVec.toNat_ofNat]
  omega

theorem rasterData_length {s : State} {data : List Byte} (h : rasterData s = some data) :
    data.length = rasterBytes (width s) (height s) :=
  (Memory.readRange_eq_some_iff.1 h).1

/-! ### delta, phase by phase -/

theorem delta_op0_open {b : Byte} {s : State} (hp : s.phase = .op0) (hb : isSingleByte b = false) :
    delta b s = .next (await .op1 (latchFirst b s)) := by
  have hn : ¬ (b = 0x00 ∨ b = 0x1E) := fun h => by rw [(isSingleByte_iff b).2 h] at hb; cases hb
  simp only [delta, hp, deltaOp0]
  rw [if_neg fun h => hn (.inl h), if_neg fun h => hn (.inr h)]

theorem delta_op0_idle {s : State} (hp : s.phase = .op0) : delta 0x00 s = exec .idle s := by
  simp only [delta, hp, deltaOp0, if_true]

theorem delta_op0_buzz {s : State} (hp : s.phase = .op0) : delta 0x1E s = exec .buzz s := by
  simp only [delta, hp, deltaOp0]
  rfl

theorem delta_op1_unknown {b : Byte} {s : State} (hp : s.phase = .op1) (h : lookup s.b0 b = none) :
    delta b s = exec (.unk s.b0 b) (latchSecond b s) := by
  have ho : opcode (latchSecond b s) = none := h
  simp only [delta, hp, deltaOp1, ho]
  rfl

theorem delta_op1_payload {b : Byte} {s : State} {op : Opcode} (hp : s.phase = .op1) (h : lookup s.b0 b = some op)
    (hi : op ≠ .init) : delta b s = .next (await .payload (latchSecond b s)) := by
  have ho : opcode (latchSecond b s) = some op := h
  have hn : need op s.f[0] ≠ 0 := fun hn => hi ((need_eq_zero_iff _ _).1 hn)
  simp only [delta, hp, deltaOp1, ho]
  exact if_neg hn

theorem delta_op1_init {b : Byte} {s : State} (hp : s.phase = .op1) (h : lookup s.b0 b = some .init) :
    delta b s = exec .init (latchSecond b s) := by
  have ho : opcode (latchSecond b s) = some .init := h
  simp only [delta, hp, deltaOp1, ho]
  rfl

@[simp] theorem opcode_latchField (b : Byte) (s : State) : opcode (latchField b s) = opcode s := by
  simp [opcode]

theorem delta_payload_more {b : Byte} {s : State} {op : Opcode} (hp : s.phase = .payload) (hn : s.nf.val < 6)
    (ho : opcode s = some op) (hm : s.nf.val + 1 ≠ need op (latchField b s).f[0]) :
    delta b s = .next (latchField b s) := by
  simp only [delta, hp, deltaPayload, opcode_latchField, ho, latchField_nf hn]
  rw [if_pos hn, if_neg hm]

theorem delta_payload_last {b : Byte} {s : State} {op : Opcode} (hp : s.phase = .payload) (hn : s.nf.val < 6)
    (ho : opcode s = some op) (hr : op ≠ .raster) (hm : s.nf.val + 1 = need op (latchField b s).f[0]) :
    delta b s = exec (operands op [] (latchField b s)) (latchField b s) := by
  simp only [delta, hp, deltaPayload, opcode_latchField, ho, latchField_nf hn]
  rw [if_pos hn, if_pos hm, if_neg hr]

theorem delta_payload_raster {b : Byte} {s : State} (hp : s.phase = .payload) (hn : s.nf.val = 5)
    (ho : opcode s = some .raster) : delta b s = startRaster (latchField b s) := by
  have hn6 : s.nf.val < 6 := by omega
  simp only [delta, hp, deltaPayload, opcode_latchField, ho, latchField_nf hn6]
  rw [if_pos hn6, if_pos (by simp [hn, need]), if_pos trivial]

theorem startRaster_empty {s : State} (h : rasterBytes (width s) (height s) = 0) :
    startRaster s = exec (operands .raster [] s) (loadCounters s) := by
  have hc : (loadCounters s).cnt = 0 := BitVec.eq_of_toNat_eq (by rw [loadCounters_cnt_toNat, h]; rfl)
  simp only [startRaster, hc, if_true]
  rfl

theorem startRaster_data {s : State} (h : rasterBytes (width s) (height s) ≠ 0) :
    startRaster s = .next (await .rdata (loadCounters s)) := by
  have hc : (loadCounters s).cnt ≠ 0 := fun hc => h (by rw [← loadCounters_cnt_toNat, hc]; rfl)
  simp only [startRaster, hc, if_false]

theorem latchRaster_cnt_toNat {b : Byte} {s : State} (h : 1 ≤ s.cnt.toNat) :
    (latchRaster b s).cnt.toNat = s.cnt.toNat - 1 := by
  have := s.cnt.isLt
  have h1 : (1 : Count).toNat = 1 := rfl
  rw [latchRaster_cnt, BitVec.toNat_sub, h1]
  omega

theorem latchRaster_idx_toNat {b : Byte} {s : State} (h : s.idx.toNat < Config.rbCapacity) :
    (latchRaster b s).idx.toNat = s.idx.toNat + 1 := by
  have h1 : (1 : Count).toNat = 1 := rfl
  rw [latchRaster_idx, BitVec.toNat_add, h1]
  unfold Config.rbCapacity at h
  omega

theorem delta_rdata_more {b : Byte} {s : State} (hp : s.phase = .rdata) (hc : 1 < s.cnt.toNat)
    (hi : s.idx.toNat < Config.rbCapacity) : delta b s = .next (latchRaster b s) := by
  have h0 : s.cnt ≠ 0 := fun h => by rw [h] at hc; simp at hc
  have h1 : (latchRaster b s).cnt ≠ 0 := fun h => by
    have := congrArg BitVec.toNat h
    have hz : (0 : Count).toNat = 0 := rfl
    rw [latchRaster_cnt_toNat (by omega), hz] at this
    omega
  simp only [delta, hp, deltaRdata]
  rw [if_neg h0, if_pos hi, if_neg h1]

theorem delta_rdata_last {b : Byte} {s : State} {data : List Byte} (hp : s.phase = .rdata) (hc : s.cnt.toNat = 1)
    (hi : s.idx.toNat < Config.rbCapacity) (hd : rasterData (latchRaster b s) = some data) :
    delta b s = exec (operands .raster data (latchRaster b s)) (latchRaster b s) := by
  have h0 : s.cnt ≠ 0 := fun h => by rw [h] at hc; simp at hc
  have h1 : (latchRaster b s).cnt = 0 :=
    BitVec.eq_of_toNat_eq (by rw [latchRaster_cnt_toNat (by omega), hc]; rfl)
  simp only [delta, hp, deltaRdata, hd]
  rw [if_neg h0, if_pos hi, if_pos h1]

theorem latched_payload {b : Byte} {s : State} (h : s.phase = .payload) :
    latched b s = if opcode (latchField b s) = some .raster ∧ (latchField b s).nf.val = 6
      then loadCounters (latchField b s) else latchField b s := by
  simp [latched, h]

/-- One `delta` either runs the handler of the command its byte completes, on the state with the byte stored, or only
stores the byte and waits for the next one. -/
theorem delta_cases {b : Byte} {s t : State} (h : delta b s = .next t) :
    (∃ i, Completes b s i ∧ exec i (latched b s) = .next t) ∨
    (∃ p, p ≠ .op0 ∧ p ≠ .halt ∧ t = await p (latched b s)) := by
  cases hp : s.phase with
  | op0 =>
    simp only [delta, hp, deltaOp0] at h
    split at h
    · rename_i hb
      exact .inl ⟨.idle, .inl ⟨hp, .inl ⟨hb, rfl⟩⟩, by rw [← h]; simp [latched, hp, isSingleByte, hb]⟩
    · split at h
      · rename_i hb
        exact .inl ⟨.buzz, .inl ⟨hp, .inr ⟨hb, rfl⟩⟩, by rw [← h]; simp [latched, hp, isSingleByte, hb]⟩
      · rename_i h0 h1
        refine .inr ⟨.op1, by simp, by simp, ?_⟩
        rw [← Host.Outcome.next.inj h, latched, hp]
        simp only [not_isSingleByte h0 h1, Bool.false_eq_true, if_false]
  | op1 =>
    have hl : latched b s = latchSecond b s := by simp [latched, hp]
    simp only [delta, hp, deltaOp1] at h
    split at h
    · split at h
      · refine .inl ⟨_, .inr (.inr ⟨by simp [hp], by simp [hp], _, [], rfl, ?_⟩), by rwa [hl]⟩
        rintro rfl
        simp [need] at *
      · exact .inr ⟨.payload, by simp, by simp, by rw [hl]; exact (Host.Outcome.next.inj h).symm⟩
    · exact .inl ⟨_, .inr (.inl ⟨hp, by assumption, rfl⟩), by rwa [hl]⟩
  | payload =>
    have hl := latched_payload (b := b) hp
    have hpl : ∀ u, u = latchField b s → u = await .payload u := by
      rintro u rfl; simp only [await, ← hp, ← latchField_phase b s]
    simp only [delta, hp, deltaPayload] at h
    split at h
    · split at h
      · rename_i ho
        rw [if_neg (by simp [ho])] at hl
        exact .inr ⟨.payload, by simp, by simp, by rw [hl, ← hpl _ rfl]; exact (Host.Outcome.next.inj h).symm⟩
      · rename_i op ho
        split at h
        · rename_i hn
          split at h
          · subst_vars
            rw [if_pos ⟨ho, hn⟩] at hl
            simp only [startRaster] at h
            split at h
            · rename_i hc
              refine .inl ⟨_, .inr (.inr ⟨by simp [hp], by simp [hp], .raster, [], rfl, fun _ => ?_⟩), by rwa [hl]⟩
              have hc' := congrArg BitVec.toNat hc
              rw [loadCounters_cnt_toNat] at hc'
              rw [hl, width_congr (loadCounters_f _), height_congr (loadCounters_f _), hc']
              rfl
            · exact .inr ⟨.rdata, by simp, by simp, by rw [hl]; exact (Host.Outcome.next.inj h).symm⟩
          · rename_i hr
            rw [if_neg (by simp [ho, hr])] at hl
            exact .inl ⟨_, .inr (.inr ⟨by simp [hp], by simp [hp], op, [], rfl, fun h => absurd h hr⟩), by rwa [hl]⟩
        · rename_i hn
          rw [if_neg (by rintro ⟨h1, h2⟩; rw [ho] at h1; cases h1; exact hn h2)] at hl
          exact .inr ⟨.payload, by simp, by simp, by rw [hl, ← hpl _ rfl]; exact (Host.Outcome.next.inj h).symm⟩
    · cases h
  | rdata =>
    have hl : latched b s = latchRaster b s := by simp [latched, hp]
    simp only [delta, hp, deltaRdata] at h
    split at h
    · cases h
    · split at h
      · split at h
        · split at h
          · rename_i data hd
            refine .inl ⟨_, .inr (.inr ⟨by simp [hp], by simp [hp], .raster, data, rfl, fun _ => ?_⟩), by rwa [hl]⟩
            rw [hl]; exact rasterData_length hd
          · cases h
        · refine .inr ⟨.rdata, by simp, by simp, ?_⟩
          rw [hl, ← Host.Outcome.next.inj h]
          simp only [await, ← hp, ← latchRaster_phase b s]
      · cases h
  | halt => simp [delta, hp] at h

/-- What a `delta` leaves of the queue and the status. -/
theorem delta_frame {b : Byte} {s t : State} (h : delta b s = .next t) :
    t.buf = s.buf ∧ t.pos = s.pos ∧ t.closed = s.closed ∧ t.halted = s.halted ∧ t.turns = s.turns ∧ t.wait = s.wait := by
  rcases delta_cases h with ⟨i, _, hx⟩ | ⟨p, _, _, rfl⟩
  · rw [eq_of_exec hx]; simp
  · simp

/-- What a `delta` does to the outputs: the handler of the command it completes, or nothing. -/
theorem delta_outputs {b : Byte} {s t : State} (h : delta b s = .next t) :
    (t.ev = s.ev ∧ t.tx = s.tx ∧ t.unkSeen = s.unkSeen) ∨
    ∃ i, Completes b s i ∧ t.ev = s.ev ++ eventsOf i ∧ t.tx = s.tx ++ replyOf i ∧
      t.unkSeen = (s.unkSeen || isUnknown i) := by
  rcases delta_cases h with ⟨i, hc, hx⟩ | ⟨p, _, _, rfl⟩
  · exact .inr ⟨i, hc, by rw [eq_of_exec hx]; simp⟩
  · exact .inl (by simp)

/-- A table command from the latches is no unknown opcode and no single-byte command. -/
theorem isUnknown_operands (op : Opcode) (data : List Byte) (s : State) :
    isUnknown (operands op data s) = false := by
  cases op <;> simp only [operands, isUnknown]
  cases isShortCut s.f[0] <;> rfl

theorem buzzer_not_mem_eventsOf_operands (op : Opcode) (data : List Byte) (s : State) :
    Event.buzzer ∉ eventsOf (operands op data s) := by
  cases op <;> simp only [operands, eventsOf] <;> try simp
  cases isShortCut s.f[0] <;> simp

/-- What a decoder step does to the queue, the turns and the status. -/
theorem decoderStep_queue {s t : State} (h : decoderStep s = .next t) :
    t.turns = s.turns ∧ t.closed = s.closed ∧
    ((t.buf = s.buf ∧ t.pos = s.pos) ∨ (s.halted = false ∧ t.pos = s.pos + 1 ∧ ∃ b, s.buf = b :: t.buf)) ∧
    (s.halted = true → t = s) ∧ (s.halted = false → t.halted = true → s.closed = true ∧ s.buf = []) := by
  rcases decoderStep_cases s with ⟨hh, he⟩ | ⟨hh, b, rest, hb, he⟩ | ⟨hh, h1, h2, he⟩ | ⟨hh, _, _, he⟩
  · rw [he] at h; cases h; simp_all
  · rw [he] at h
    obtain ⟨h1, h2, h3, h4, h5, h6⟩ := delta_frame h
    rw [h1, h2, h3, h4, h5]
    simp_all
  · rw [he] at h; cases h; simp_all
  · rw [he] at h; cases h; simp_all

/-! ### delta and the queue -/

/-- `s` with the queue, the stream status and the turns of `q`. -/
def withQueue (q s : State) : State :=
  { s with
    buf := q.buf, wait := q.wait, closed := q.closed, pos := q.pos, halted := q.halted, turns := q.turns }

/-- A function applied to the next state of an outcome. -/
def mapNext (g : State → State) (r : Result) : Result :=
  match r with
  | .next t => .next (g t)
  | .fault r => .fault r
  | .refused r => .refused r

theorem exec_withQueue (i : Instr) (q s : State) : exec i (withQueue q s) = mapNext (withQueue q) (exec i s) := by
  rw [exec_eq, exec_eq]; rfl

theorem latchField_withQueue (b : Byte) (q s : State) :
    latchField b (withQueue q s) = withQueue q (latchField b s) := by
  unfold latchField withQueue
  dsimp only
  split <;> rfl

theorem operands_withQueue (op : Opcode) (data : List Byte) (q s : State) :
    operands op data (withQueue q s) = operands op data s := rfl

theorem startRaster_withQueue (q s : State) : startRaster (withQueue q s) = mapNext (withQueue q) (startRaster s) := by
  have hl : loadCounters (withQueue q s) = withQueue q (loadCounters s) := rfl
  simp only [startRaster, hl, operands_withQueue, exec_withQueue]
  rw [apply_ite (mapNext (withQueue q))]
  rfl

/-- `delta` reads and writes the latches, `PHASE` and the outputs only (R110): it commutes with any change of the
queue. -/
theorem delta_withQueue (b : Byte) (q s : State) : delta b (withQueue q s) = mapNext (withQueue q) (delta b s) := by
  have hphase : (withQueue q s).phase = s.phase := rfl
  unfold delta
  rw [hphase]
  cases s.phase with
  | op0 =>
    simp only [deltaOp0, exec_withQueue]
    rw [apply_ite (mapNext (withQueue q)), apply_ite (mapNext (withQueue q))]
    rfl
  | op1 =>
    have hl : latchSecond b (withQueue q s) = withQueue q (latchSecond b s) := rfl
    have ho : opcode (withQueue q (latchSecond b s)) = opcode (latchSecond b s) := rfl
    simp only [deltaOp1, hl, ho]
    cases opcode (latchSecond b s) with
    | none => exact exec_withQueue _ _ _
    | some op =>
      simp only [operands_withQueue, exec_withQueue]
      rw [apply_ite (mapNext (withQueue q))]
      rfl
  | payload =>
    have ho : opcode (withQueue q (latchField b s)) = opcode (latchField b s) := rfl
    have hn : (withQueue q s).nf = s.nf := rfl
    simp only [deltaPayload, latchField_withQueue, ho, hn]
    rw [apply_ite (mapNext (withQueue q))]
    congr 1
    cases opcode (latchField b s) with
    | none => rfl
    | some op =>
      simp only [operands_withQueue, exec_withQueue, startRaster_withQueue]
      rw [apply_ite (mapNext (withQueue q)), apply_ite (mapNext (withQueue q))]
      rfl
  | rdata =>
    have hl : latchRaster b (withQueue q s) = withQueue q (latchRaster b s) := rfl
    have hd : rasterData (withQueue q (latchRaster b s)) = rasterData (latchRaster b s) := rfl
    simp only [deltaRdata, hl, hd]
    rw [apply_ite (mapNext (withQueue q)), apply_ite (mapNext (withQueue q)), apply_ite (mapNext (withQueue q))]
    congr 2
    congr 1
    cases rasterData (latchRaster b s) with
    | none => rfl
    | some data => exact exec_withQueue _ _ _
  | halt => rfl

end Sys2Proof.Machine
end

