-- ==== Sys2Proof/Laws/Feed.lean ====
section
/-! SUPPORT. Sequences: steps after steps, `delta` over a byte string, and the two together. -/

namespace Sys2Proof.Machine

/-- Steps split anywhere. -/
theorem steps_add (m n : Nat) (s : State) :
    steps (m + n) s =
      match steps m s with
      | .next t => steps n t
      | .fault r => .fault r
      | .refused r => .refused r := by
  induction m generalizing s with
  | zero => simp [steps]
  | succ m ih =>
    rw [Nat.succ_add, steps, steps]
    cases step s with
    | next t => exact ih t
    | fault r => rfl
    | refused r => rfl

/-- `delta` over a string splits anywhere. -/
theorem feed_append (bs cs : List Byte) (s : State) :
    feed (bs ++ cs) s =
      match feed bs s with
      | .next t => feed cs t
      | .fault r => .fault r
      | .refused r => .refused r := by
  induction bs generalizing s with
  | nil => rfl
  | cons b bs ih =>
    simp only [List.cons_append, feed]
    cases delta b { s with pos := s.pos + 1 } with
    | next t => exact ih t
    | fault r => rfl
    | refused r => rfl

/-- What `delta` over a string leaves of the queue, the status and the outputs. -/
theorem feed_frame {bs : List Byte} {s t : State} (h : feed bs s = .next t) :
    t.buf = s.buf ∧ t.closed = s.closed ∧ t.halted = s.halted ∧ t.turns = s.turns ∧ t.wait = s.wait ∧
    t.pos = s.pos + bs.length ∧ s.ev <+: t.ev ∧ s.tx <+: t.tx := by
  induction bs generalizing s with
  | nil => cases h; simp
  | cons b bs ih =>
    unfold feed at h
    split at h
    · rename_i u hu
      obtain ⟨e1, e2, e3, e4, e5, e6⟩ := delta_frame hu
      obtain ⟨a1, a2, a3, a4, a5, a6, a7, a8⟩ := ih h
      have hout : s.ev <+: u.ev ∧ s.tx <+: u.tx := by
        rcases delta_outputs hu with ⟨hev, htx, _⟩ | ⟨i, _, hev, htx, _⟩ <;> rw [hev, htx] <;> simp
      refine ⟨a1.trans e1, a2.trans e3, a3.trans e4, a4.trans e5, a5.trans e6, ?_, hout.1.trans a7, hout.2.trans a8⟩
      simp only at e2
      rw [a6, e2, List.length_cons]
      omega
    · cases h
    · cases h

/-- `delta` over a string commutes with any change of the queue, the stream status and the turns. -/
theorem feed_withQueue (bs : List Byte) (q s : State) :
    feed bs (withQueue { q with pos := s.pos } s) =
      mapNext (fun t => withQueue { q with pos := t.pos } t) (feed bs s) := by
  induction bs generalizing s with
  | nil => rfl
  | cons b bs ih =>
    have hc : ({ withQueue { q with pos := s.pos } s with pos := (withQueue { q with pos := s.pos } s).pos + 1 } : State) =
      withQueue { q with pos := s.pos + 1 } { s with pos := s.pos + 1 } := rfl
    unfold feed
    rw [hc, delta_withQueue]
    cases hd : delta b { s with pos := s.pos + 1 } with
    | next t =>
      have hp : t.pos = s.pos + 1 := (delta_frame hd).2.1
      simp only [mapNext]
      rw [← hp]
      exact ih t
    | fault r => rfl
    | refused r => rfl

/-- While the decoder has every turn and the bytes are there, so many steps are `delta` over those bytes. -/
theorem steps_eq_feed {bs rest : List Byte} {s : State} (ht : s.turns = []) (hh : s.halted = false)
    (hb : s.buf = bs ++ rest) : steps bs.length s = feed bs { s with buf := rest } := by
  induction bs generalizing s with
  | nil => simp [steps, feed, ← show s.buf = rest from hb]
  | cons b bs ih =>
    rw [List.length_cons, steps, step_of_no_turns ht, decoderStep_byte hh hb]
    unfold feed
    have e1 : consume s = withQueue (consume s) { s with buf := rest, pos := s.pos + 1 } := by simp [consume, withQueue]
    rw [e1, delta_withQueue]
    cases hd : delta b { s with buf := rest, pos := s.pos + 1 } with
    | next t =>
      obtain ⟨t1, t2, t3, t4, t5, t6⟩ := delta_frame hd
      simp only [mapNext]
      rw [ih (s := withQueue (consume s) t) ht hh (by simp [withQueue, consume, hb])]
      congr 1
      cases t
      simp only at t1 t2 t3 t4 t5 t6
      subst t1 t2 t3 t4 t5 t6
      rfl
    | fault r => rfl
    | refused r => rfl

end Sys2Proof.Machine
end

