-- ==== Sys2Proof/Laws/PerInstr.lean ====
section
/-! SUPPORT. Statements made for every command, one lemma per constructor of `Instr`. -/

namespace Sys2Proof.Laws.EncodeLength

/-- The encoding of a well-formed command has the total length `L` of 30_encoding.md R116. -/
def Statement (i : Instr) : Prop := i.wellFormed = true → (encode i).length = commandBytesCount i

theorem idle : Statement .idle := fun _ => rfl
theorem buzz : Statement .buzz := fun _ => rfl
theorem pmode (n : Byte) : Statement (.pmode n) := fun _ => rfl
theorem init : Statement .init := fun _ => rfl
theorem feed (n : Byte) : Statement (.feed n) := fun _ => rfl
theorem charset (n : Byte) : Statement (.charset n) := fun _ => rfl
theorem reverse (n : Byte) : Statement (.reverse n) := fun _ => rfl
theorem skip2 (a b : Byte) : Statement (.skip2 a b) := fun _ => rfl
theorem codepage (n : Byte) : Statement (.codepage n) := fun _ => rfl
theorem units (x y : Byte) : Statement (.units x y) := fun _ => rfl
theorem cut (m : Byte) : Statement (.cut m) := fun _ => rfl
theorem cutf (m n : Byte) : Statement (.cutf m n) := fun _ => rfl
theorem status (n : Byte) : Statement (.status n) := fun _ => rfl
theorem raster (k mode : Byte) (w h : Half) (data : List Byte) : Statement (.raster k mode w h data) := by
  intro hw
  have hl : data.length = rasterBytes w h := by simpa [Instr.wellFormed] using hw
  simp only [encode, commandBytesCount, List.length_append, hl]
  rfl
theorem unk (b0 b1 : Byte) : Statement (.unk b0 b1) := fun _ => rfl

end Sys2Proof.Laws.EncodeLength
end

