-- ==== Sys2Proof/Tests/Slice0.lean ====
section
/-! SUPPORT. The author's own tests. Expected values come from 30_encoding.md (the format tables R91 to R97) and
95_test_vectors.md, whose vectors (S, V, P, X) are named in the comments. At the end, one witness or more for every
statement that has hypotheses. -/

namespace Sys2Proof.Tests

open Sys2Proof.Machine

/-! ### Decoding, word by word from the format tables -/

-- R91, R98: single bytes
theorem test_decode_idle : decode [0x00, 0x1E] = .ok (.idle, [0x1E]) := by decide
theorem test_decode_buzz : decode [0x1E] = .ok (.buzz, []) := by decide
-- R92 to R94: opcode byte 0, opcode byte 1, then the payload in stream order
theorem test_decode_pmode : decode [0x1B, 0x21, 0x38] = .ok (.pmode 56, []) := by decide
theorem test_decode_init : decode [0x1B, 0x40, 0x1B] = .ok (.init, [0x1B]) := by decide
theorem test_decode_feed : decode [0x1B, 0x4A, 0x40] = .ok (.feed 64, []) := by decide
theorem test_decode_charset : decode [0x1B, 0x52, 0x0E] = .ok (.charset 14, []) := by decide
theorem test_decode_reverse : decode [0x1D, 0x42, 0x80] = .ok (.reverse 128, []) := by decide
theorem test_decode_skip2 : decode [0x1B, 0x63, 0x00, 0x1E, 0x1E] = .ok (.skip2 0 0x1E, [0x1E]) := by decide
theorem test_decode_codepage : decode [0x1B, 0x74, 0x10] = .ok (.codepage 16, []) := by decide
theorem test_decode_units : decode [0x1D, 0x50, 0x00, 0xFF] = .ok (.units 0 255, []) := by decide
-- R95, R165: V31, V32, V33, V34, V35
theorem test_decode_cut : decode [0x1D, 0x56, 0x31, 0x00] = .ok (.cut 49, [0x00]) := by decide
theorem test_decode_cutf : decode [0x1D, 0x56, 0x30, 0x1E, 0x1E] = .ok (.cutf 48 0x1E, [0x1E]) := by decide
theorem test_decode_cutf_low : decode [0x1D, 0x56, 0x02, 0x05] = .ok (.cutf 2 5, []) := by decide
theorem test_decode_status : decode [0x1D, 0x61, 0x0F] = .ok (.status 15, []) := by decide
-- R97: V69, V66
theorem test_decode_raster :
    decode [0x1D, 0x76, 0x30, 0x00, 0x02, 0x00, 0x03, 0x00, 0x81, 0xFF, 0x00, 0x18, 0xA5, 0x0F, 0x1E] =
      .ok (.raster 0x30 0 2 3 [0x81, 0xFF, 0x00, 0x18, 0xA5, 0x0F], [0x1E]) := by decide
theorem test_decode_raster_empty :
    decode [0x1D, 0x76, 0x31, 0x03, 0x05, 0x00, 0x00, 0x00, 0x1E] = .ok (.raster 0x31 3 5 0 [], [0x1E]) := by decide
-- R99, R100: V4, V84
theorem test_decode_unk : decode [0x1B, 0x1E, 0x1E] = .ok (.unk 0x1B 0x1E, [0x1E]) := by decide
theorem test_decode_missing_byte : decode [0x1D, 0x76, 0x30] = .error (.payloadShort .raster) := by decide
-- R97, R104 (S1, V56): 300 is sent as 2C 01
theorem test_encode_raster_header :
    encode (.raster 0x30 0 300 512 []) = [0x1D, 0x76, 0x30, 0x00, 0x2C, 0x01, 0x00, 0x02] := by decide
theorem test_encode_units : encode (.units 180 0) = [0x1D, 0x50, 0xB4, 0x00] := by decide
-- V58, V61: the count is exact
theorem test_raster_bytes : rasterBytes 256 256 = 65536 ∧ rasterBytes 0xFFFF 0xFFFF = 4294836225 := by decide

-- P4: what the decoder retires of `1B 61 01`, INIT, IDLE, STATUS 1
theorem test_retired : retired [0x1B, 0x61, 0x01, 0x1B, 0x40, 0x00, 0x1D, 0x61, 0x01] =
    [.unk 0x1B 0x61, .unk 0x01 0x1B, .unk 0x40 0x00, .status 1] := by decide
-- V82: `40` waits in `OP1`
theorem test_residual : residual [0x41, 0x42, 0x43, 0x1B, 0x40] = [0x40] := by decide

/-! ### WellFormed: one ill-formed term for each check -/

theorem test_ill_formed_cut : (Instr.cut 48).wellFormed = false := by decide
theorem test_ill_formed_cutf : (Instr.cutf 49 0).wellFormed = false := by decide
theorem test_ill_formed_raster : (Instr.raster 0x30 0 2 3 [0x81]).wellFormed = false := by decide
theorem test_ill_formed_unk_pair : (Instr.unk 0x1D 0x56).wellFormed = false := by decide
theorem test_ill_formed_unk_first : (Instr.unk 0x00 0x41).wellFormed = false := by decide
theorem test_ill_formed_unk_buzz : (Instr.unk 0x1E 0x41).wellFormed = false := by decide

/-! ### The table's words (R117) -/

theorem test_word_single : decodeTableWord 8 0x1E = some .buzz := by decide
theorem test_word_pair : decodeTableWord 16 0x1B21 = some (.pmode 0) := by decide
theorem test_word_raster : decodeTableWord 16 0x1D76 = some (.raster 0 0 0 0 []) := by decide
theorem test_word_later_byte : decodeTableWord 24 0x421D56 = some (.cutf 66 0) := by decide

/-! ### One step on a small state -/

/-- What a test looks at: events, TX, `PHASE`, `POS`, `UNKSEEN`. -/
def seen (r : Result) : Option (List Event × List Byte × Phase × Nat × Bool) :=
  match r with
  | .next t => some (t.ev, t.tx, t.phase, t.pos, t.unkSeen)
  | .fault _ => none
  | .refused _ => none

/-- `OP0` with bytes in the queue. -/
def fresh (bs : List Byte) : State := { State.reset with buf := bs }

/-- `PAYLOAD` of the opcode `b0 b1` with `nf` field bytes in `f`, two opcode bytes and those consumed. -/
def inPayload (b0 b1 : Byte) (f : Vector Byte 6) (nf : Fin 7) (bs : List Byte) : State :=
  { State.reset with phase := .payload, b0 := b0, b1 := b1, f := f, nf := nf, pos := 2 + nf.val, buf := bs }

/-- `RDATA` of a 2 by 2 image with two data bytes consumed and `cnt` to come (V71). -/
def inImage (cnt : Count) (bs : List Byte) : State :=
  { State.reset with
    phase := .rdata, b0 := 0x1D, b1 := 0x76, f := #v[0x30, 0, 2, 0, 2, 0], nf := 6, cnt := cnt, idx := 4 - cnt,
    rb := if cnt = 1 then [(0, 0xAA), (1, 0xBB), (2, 0xCC)] else [(0, 0xAA), (1, 0xBB)],
    pos := 12 - cnt.toNat, buf := bs }

/-- No field byte yet. -/
def noFields : Vector Byte 6 := Vector.replicate 6 0

-- V1, V2
theorem test_step_idle : seen (step (fresh [0x00])) = some ([], [], .op0, 1, false) := by decide
theorem test_step_buzz : seen (step (fresh [0x1E])) = some ([.buzzer], [], .op0, 1, false) := by decide
-- V14, V12
theorem test_step_pmode : seen (step (inPayload 0x1B 0x21 noFields 0 [0x38])) =
    some ([.printMode 56 false true true true false], [], .op0, 3, false) := by decide
theorem test_step_pmode_ignored_bits : seen (step (inPayload 0x1B 0x21 noFields 0 [0x46])) =
    some ([.printMode 70 false false false false false], [], .op0, 3, false) := by decide
-- V15
theorem test_step_init : seen (step { State.reset with phase := .op1, b0 := 0x1B, pos := 1, buf := [0x40] }) =
    some ([.resetPrinter], [], .op0, 2, false) := by decide
-- V17
theorem test_step_feed : seen (step (inPayload 0x1B 0x4A noFields 0 [0xFF])) =
    some ([.feedPaper 255], [], .op0, 3, false) := by decide
-- V19, V20
theorem test_step_charset_last : seen (step (inPayload 0x1B 0x52 noFields 0 [0x0D])) =
    some ([.selectCharset 13 (.name 13)], [], .op0, 3, false) := by decide
theorem test_step_charset_reserved : seen (step (inPayload 0x1B 0x52 noFields 0 [0x0E])) =
    some ([.selectCharset 14 .reserved], [], .op0, 3, false) := by decide
-- V22
theorem test_step_reverse_off : seen (step (inPayload 0x1D 0x42 noFields 0 [0x00])) =
    some ([.reverseMode false], [], .op0, 3, false) := by decide
theorem test_step_reverse_even : seen (step (inPayload 0x1D 0x42 noFields 0 [0x02])) =
    some ([.reverseMode true], [], .op0, 3, false) := by decide
-- V24
theorem test_step_skip2 : seen (step (inPayload 0x1B 0x63 noFields 1 [0x1E])) =
    some ([], [], .op0, 4, false) := by decide
-- V25
theorem test_step_codepage : seen (step (inPayload 0x1B 0x74 noFields 0 [0x10])) =
    some ([.codePage 16], [], .op0, 3, false) := by decide
-- V27
theorem test_step_units : seen (step (inPayload 0x1D 0x50 #v[0x07, 0, 0, 0, 0, 0] 1 [0xFF])) =
    some ([.motionUnits 7 255], [], .op0, 4, false) := by decide
-- V31, V34
theorem test_step_cut : seen (step (inPayload 0x1D 0x56 noFields 0 [0x01])) =
    some ([.partialCut 1], [], .op0, 3, false) := by decide
theorem test_step_cut_waits : seen (step (inPayload 0x1D 0x56 noFields 0 [0x30])) =
    some ([], [], .payload, 3, false) := by decide
theorem test_step_cutf : seen (step (inPayload 0x1D 0x56 #v[0x30, 0, 0, 0, 0, 0] 1 [0x1E])) =
    some ([.feedAndCut 48 30], [], .op0, 4, false) := by decide
-- V41, V40
theorem test_step_status : seen (step (inPayload 0x1D 0x61 noFields 0 [0x05])) =
    some ([.statusEnable 5 true false true false], [0x14, 0x00, 0x00, 0x00, 0xFF], .op0, 3, false) := by decide
-- V67 (an image of no bytes), V71 completed
theorem test_step_raster_empty : seen (step (inPayload 0x1D 0x76 #v[0x31, 3, 5, 0, 0, 0] 5 [0x00])) =
    some ([.image 0x31 3 5 0 []], [], .op0, 8, false) := by decide
theorem test_step_raster_last : seen (step (inImage 1 [0x1E])) =
    some ([.image 0x30 0 2 2 [0xAA, 0xBB, 0xCC, 0x1E]], [], .op0, 12, false) := by decide
-- V80
theorem test_step_unk : seen (step { State.reset with phase := .op1, b0 := 0x1B, pos := 1, buf := [0x61] }) =
    some ([], [], .op0, 2, true) := by decide
-- X6: `1B 00` is one unknown opcode
theorem test_step_unk_zero : seen (step { State.reset with phase := .op1, b0 := 0x1B, pos := 1, buf := [0x00, 0x1E] }) =
    some ([], [], .op0, 2, true) := by decide
-- Schedule A, move 7
theorem test_step_end_of_stream : step { State.reset with closed := true } =
    .next { State.reset with closed := true, halted := true, phase := .halt } := by rfl
-- the first step after reset runs a table word's command
theorem test_fetch_word_runs : seen (step (State.reset.withFetchWord 16 0x1D61)) =
    some ([.statusEnable 0 false false false false], [0x14, 0x00, 0x00, 0x00, 0xFF], .op0, 3, false) := by decide
theorem test_fetch_word_pair : seen (step (State.reset.withFetchWord 16 0x1B40)) =
    some ([.resetPrinter], [], .op0, 2, false) := by decide
-- S2, and the table under V61: A5 = #.#..#.#
theorem test_unpack : unpack 0x81 = [true, false, false, false, false, false, false, true] ∧
    unpack 0xA5 = [true, false, true, false, false, true, false, true] := by decide
-- the spot checks under V69
theorem test_pixel : pixel 2 3 [0x81, 0xFF, 0x00, 0x18, 0xA5, 0x0F] 1 11 = some true ∧
    pixel 2 3 [0x81, 0xFF, 0x00, 0x18, 0xA5, 0x0F] 1 10 = some false ∧
    pixel 2 3 [0x81, 0xFF, 0x00, 0x18, 0xA5, 0x0F] 2 1 = some false := by decide

/-! ### Witnesses: states and operands that meet every hypothesis of a statement

Named after the statement; a number tells the clauses of one statement apart. -/

theorem inv_inImage_empty (cnt : Count) (hc : cnt = 1 ∨ cnt = 2) : Inv (inImage cnt []) := by
  rcases hc with rfl | rfl <;>
  exact
    { bufWait := by decide, closedWait := by decide, haltPhase := by decide, haltQueue := by decide
      op1First := by decide, payloadFields := (fun h => nomatch h), rdataCounts := by decide, rdataWritten := by decide
      rbForm := by decide, rbRange := by decide, events := by decide, replies := rfl }

/-- A session in the middle of an image (V71), whatever stands in its queue, meets the invariant. -/
theorem inv_inImage (cnt : Count) (hc : cnt = 1 ∨ cnt = 2) (bs : List Byte) : Inv (inImage cnt bs) :=
  { inv_inImage_empty cnt hc with bufWait := fun _ => rfl, haltQueue := fun h => nomatch h }

/-- Any queue, any stream status and any turns on a running session between commands keep the invariant. -/
theorem inv_fresh (bs : List Byte) (c : Bool) (ms : List Move) :
    Inv { State.reset with buf := bs, closed := c, turns := ms } where
  bufWait := fun _ => rfl
  closedWait := fun _ => rfl
  haltPhase := by simp [State.reset]
  haltQueue := by simp [State.reset]
  op1First := by simp [State.reset]
  payloadFields := by simp [State.reset]
  rdataCounts := by simp [State.reset]
  rdataWritten := by simp [State.reset]
  rbForm := rfl
  rbRange := by simp [State.reset]
  events := by simp [State.reset]
  replies := rfl

/-- A request waits on an empty open queue. -/
def waiting (ms : List Move) : State := { State.reset with wait := true, turns := ms }

theorem inv_waiting (ms : List Move) : Inv (waiting ms) :=
  { inv_fresh [] false ms with bufWait := fun h => absurd rfl h, closedWait := fun h => nomatch h }

theorem ready_fresh (bs rest : List Byte) : Ready (fresh (bs ++ rest)) bs rest := ⟨rfl, rfl, rfl, rfl⟩

theorem witness_EveryStepKeepsTheInvariant : Inv (inImage 1 [0x1E]) ∧ ∃ t, step (inImage 1 [0x1E]) = .next t :=
  ⟨inv_inImage 1 (.inl rfl) _, _, rfl⟩
theorem witness_InvariantStatesNeverStop : Inv (inImage 2 [0xCC]) := inv_inImage 2 (.inr rfl) _
theorem witness_EncodedCommandDecodesToItself : (Instr.cutf 48 0x1E).wellFormed = true ∧
    (Instr.cut 49).wellFormed = true ∧ (Instr.unk 0x1D 0x1E).wellFormed = true ∧
    (Instr.raster 0x30 0 1 2 [0x81, 0x18]).wellFormed = true := by decide
theorem witness_DecodedBytesEncodeBack : decode [0x1D, 0x56, 0x30, 0x1E, 0x1E] = .ok (.cutf 48 0x1E, [0x1E]) := by
  decide
theorem witness_EveryByteStringBeginsACommand : decode [0x1D, 0x76, 0x30, 0x00, 0x02, 0x00, 0x02, 0x00, 0xAA] =
    .error (.payloadShort .raster) := by decide
theorem witness_StepRunsTheDecodedCommand : Inv (inImage 1 [0x1E, 0x00]) ∧ (inImage 1 [0x1E, 0x00]).turns = [] ∧
    (inImage 1 [0x1E, 0x00]).halted = false ∧ (inImage 1 [0x1E, 0x00]).buf = 0x1E :: [0x00] ∧
    decode (commandBytes (inImage 1 [0x1E, 0x00]) ++ [0x1E]) =
      .ok (.raster 0x30 0 2 2 [0xAA, 0xBB, 0xCC, 0x1E], []) :=
  ⟨inv_inImage 1 (.inl rfl) _, rfl, rfl, rfl, by decide⟩
theorem witness_StepInsideACommandOnlyStoresItsByte : Inv (inImage 2 [0xCC]) ∧ (inImage 2 [0xCC]).turns = [] ∧
    (inImage 2 [0xCC]).halted = false ∧ (inImage 2 [0xCC]).buf = 0xCC :: [] ∧
    decode (commandBytes (inImage 2 [0xCC]) ++ [0xCC]) = .error (.payloadShort .raster) :=
  ⟨inv_inImage 2 (.inr rfl) _, rfl, rfl, rfl, by decide⟩
theorem witness_WholeCommandIsOneHandlerCall :
    (Instr.raster 0x30 0 1 2 [0x81, 0x18]).wellFormed = true ∧
    Ready (fresh (encode (.raster 0x30 0 1 2 [0x81, 0x18]) ++ [0x1E])) (encode (.raster 0x30 0 1 2 [0x81, 0x18])) [0x1E] :=
  ⟨by decide, ready_fresh _ _⟩
theorem witness_StreamOfCommandsRetiresThemInOrder :
    (∀ c ∈ [Instr.init, .cutf 66 3, .unk 0x1B 0x61], c.wellFormed = true) ∧
    Ready (fresh ([Instr.init, .cutf 66 3, .unk 0x1B 0x61].flatMap encode ++ []))
      ([Instr.init, .cutf 66 3, .unk 0x1B 0x61].flatMap encode) [] :=
  ⟨by decide, ready_fresh _ _⟩
-- Schedules A and B, with `0F 1E` after the opcode
theorem witness_OutcomeIsFreeOfInterleaving :
    producerMoves [.push 0x1D, .decode, .push 0x61, .push 0x0F, .close] =
      producerMoves [.push 0x1D, .push 0x61, .push 0x0F, .decode, .decode, .decode, .close] ∧
    2 * (5 + 7) + (fresh []).buf.length + 1 ≤ 25 := by decide
theorem witness_StaleLatchesNeverMatter : Inv (fresh [0x1E]) ∧ Inv { fresh [0x1E] with b0 := 7, nf := 3, cnt := 9 } ∧
    sameButStaleLatches (fresh [0x1E]) { fresh [0x1E] with b0 := 7, nf := 3, cnt := 9 } ∧
    fresh [0x1E] ≠ { fresh [0x1E] with b0 := 7, nf := 3, cnt := 9 } :=
  ⟨inv_fresh _ _ _, { inv_fresh [0x1E] false [] with
    haltPhase := by simp [fresh, State.reset], haltQueue := by simp [fresh, State.reset]
    op1First := by simp [fresh, State.reset], payloadFields := by simp [fresh, State.reset]
    rdataCounts := by simp [fresh, State.reset], rdataWritten := by simp [fresh, State.reset] },
    ⟨rfl, rfl⟩, by decide⟩
theorem witness_ClosedStreamHaltsTheDecoder : Inv { State.reset with buf := [0x1D, 0x61], closed := true, turns := [] } :=
  inv_fresh _ _ _
-- Schedule D
theorem witness_OpenStreamNeverHalts : (waiting [.push 0x1D, .decode]).closed = false ∧
    (waiting [.push 0x1D, .decode]).halted = false ∧ .close ∉ (waiting [.push 0x1D, .decode]).turns ∧
    ∃ t, steps 3 (waiting [.push 0x1D, .decode]) = .next t :=
  ⟨rfl, rfl, by decide, _, rfl⟩
-- Schedule E
theorem witness_QueueIsFirstInFirstOut :
    ∃ t, steps 4 { State.reset with turns := [.push 0x1E, .decode, .close, .push 0x1E] } = .next t := ⟨_, rfl⟩
-- V38, and V71 closed while a data byte is still buffered
theorem witness_AbandonedCommandHasNoEffect :
    (Inv { State.reset with buf := [0x1D, 0x56, 0x41], closed := true, turns := [] } ∧
      decode [0x1D, 0x56, 0x41] = .error (.payloadShort .cut)) ∧
    (Inv { inImage 2 [0xCC] with closed := true } ∧
      decode (commandBytes { inImage 2 [0xCC] with closed := true } ++ [0xCC]) = .error (.payloadShort .raster)) :=
  ⟨⟨inv_fresh _ _ _, by decide⟩,
    { inv_inImage 2 (.inr rfl) [0xCC] with
      closedWait := fun _ => rfl, haltPhase := (inv_inImage 2 (.inr rfl) [0xCC]).haltPhase
      haltQueue := fun h => nomatch h }, by decide⟩
theorem witness_OutputsGrowByOneEventAndItsReply_1 : ∃ t, step (fresh [0x00]) = .next t ∧ t.ev = [] := ⟨_, rfl, rfl⟩
theorem witness_OutputsGrowByOneEventAndItsReply_2 :
    ∃ t, step (inPayload 0x1D 0x61 noFields 0 [0x0F]) = .next t ∧ t.tx = Config.ack := ⟨_, rfl, rfl⟩
theorem witness_UnknownSeenIsSetOnlyByUnknownPairs_1 :
    ∃ t, step { fresh [0x1E] with unkSeen := true } = .next t ∧ t.unkSeen = true := ⟨_, rfl, rfl⟩
theorem witness_UnknownSeenIsSetOnlyByUnknownPairs_2 :
    ∃ t, step { fresh [0x61] with phase := .op1, b0 := 0x1B } = .next t ∧ t.unkSeen = true := ⟨_, rfl, rfl⟩
theorem witness_ClosedAndHaltedAreSetOnce_1 :
    ∃ t, step { State.reset with turns := [.close] } = .next t ∧ t.closed = true := ⟨_, rfl, rfl⟩
theorem witness_ClosedAndHaltedAreSetOnce_2 :
    ∃ t, step { State.reset with closed := true } = .next t ∧ t.halted = true := ⟨_, rfl, rfl⟩
theorem witness_PositionCountsConsumedBytes_1 : ∃ t, step (fresh []) = .next t ∧ t.pos = 0 := ⟨_, rfl, rfl⟩
theorem witness_PositionCountsConsumedBytes_2 : ∃ t, step (fresh [0x1B]) = .next t ∧ t.pos = 1 := ⟨_, rfl, rfl⟩
theorem witness_NextByteYieldsTheOldestByte : (fresh [0x1D, 0x61]).buf = 0x1D :: [0x61] ∧
    { fresh [] with closed := true }.buf = [] ∧ (fresh []).buf = [] ∧ (fresh []).closed = false ∧
    (fresh []).halted = false := by decide
theorem witness_PushAppendsWhileTheStreamIsOpen :
    { fresh [0x1B] with turns := [.push 0x40] }.turns = .push 0x40 :: [] ∧
    { fresh [0x1B] with turns := [.push 0x40] }.closed = false ∧
    { fresh [0x1B] with turns := [.push 0x40] }.wait = false ∧
    { fresh [0x1B] with turns := [.push 0x40], closed := true }.closed = true := by decide
theorem witness_PushResolvesTheWaitingRequest : Inv (waiting [.push 0x1E]) ∧
    (waiting [.push 0x1E]).turns = .push 0x1E :: [] ∧ (waiting [.push 0x1E]).wait = true :=
  ⟨inv_waiting _, rfl, rfl⟩
theorem witness_CloseKeepsTheBufferedBytes : { fresh [0x1B] with turns := [.close] }.turns = .close :: [] ∧
    { fresh [0x1B] with turns := [.close] }.closed = false ∧ Inv (waiting [.close]) ∧ (waiting [.close]).wait = true ∧
    { fresh [0x1B] with turns := [.close], closed := true }.closed = true :=
  ⟨rfl, rfl, inv_waiting _, rfl, rfl⟩
theorem witness_StarvedDecoderOnlyWaits : starved (fresh []) = true ∧ (fresh []).turns = [] := by decide
theorem witness_EndOfStreamHaltsForGood : { inPayload 0x1D 0x61 noFields 0 [] with closed := true }.halted = false ∧
    { inPayload 0x1D 0x61 noFields 0 [] with closed := true }.buf = [] ∧
    { inPayload 0x1D 0x61 noFields 0 [] with closed := true }.turns = [] := by decide
theorem witness_SessionsShareNothing :
    (∃ ts, sessionMove 1 (.push 0x1E) [some State.reset, some State.reset] = .next ts) ∧
    [some State.reset, some State.reset][1]? = some (some State.reset) ∧ State.reset.halted = false :=
  ⟨⟨_, rfl⟩, rfl, rfl⟩

theorem witness_IdleBytesHaveNoEffect : Ready (fresh (List.replicate 3 0x00 ++ [0x1E])) (List.replicate 3 0x00) [0x1E] :=
  ready_fresh _ _
theorem witness_BuzzEmitsBuzzer : Ready (fresh (List.replicate 2 0x1E ++ [0x00])) (List.replicate 2 0x1E) [0x00] ∧
    (inImage 2 [0x1E]).phase ≠ .op0 ∧ ∃ t, step (inImage 2 [0x1E]) = .next t :=
  ⟨ready_fresh _ _, by decide, _, rfl⟩
theorem witness_PmodeEmitsItsFiveFlags : Ready (fresh [0x1B, 0x21, 0x38, 0x1E]) [0x1B, 0x21, 0x38] [0x1E] :=
  ready_fresh [_, _, _] _
theorem witness_InitOnlyEmitsItsEvent : Ready (fresh [0x1B, 0x40]) [0x1B, 0x40] [] ∧
    { fresh [0x61] with phase := .op1, b0 := 0x1D }.buf = 0x61 :: [] ∧ lookup 0x1D 0x61 = some .status ∧
    Opcode.status ≠ .init :=
  ⟨ready_fresh [_, _] _, rfl, rfl, by decide⟩
theorem witness_PlainCommandsEmitTheirFields : Ready (fresh [0x1B, 0x4A, 0x40]) [0x1B, 0x4A, 0x40] [] ∧
    Ready (fresh [0x1B, 0x74, 0x10]) [0x1B, 0x74, 0x10] [] ∧
    Ready (fresh [0x1D, 0x50, 0x00, 0xFF]) [0x1D, 0x50, 0x00, 0xFF] [] :=
  ⟨ready_fresh [_, _, _] _, ready_fresh [_, _, _] _, ready_fresh [_, _, _, _] _⟩
-- V19, V20: the last index in range and the first out of range
theorem witness_CharsetMapsItsIndexOrReserves : (0x0D : Byte).toNat ≤ 13 ∧ 14 ≤ (0x0E : Byte).toNat ∧
    Ready (fresh [0x1B, 0x52, 0x0D]) [0x1B, 0x52, 0x0D] [] ∧ Ready (fresh [0x1B, 0x52, 0x0E]) [0x1B, 0x52, 0x0E] [] :=
  ⟨by decide, by decide, ready_fresh [_, _, _] _, ready_fresh [_, _, _] _⟩
theorem witness_ReverseTestsTheWholeByte : (false = true ↔ (0x00 : Byte) ≠ 0) ∧ (true = true ↔ (0x02 : Byte) ≠ 0) ∧
    Ready (fresh [0x1D, 0x42, 0x00]) [0x1D, 0x42, 0x00] [] ∧ Ready (fresh [0x1D, 0x42, 0x02]) [0x1D, 0x42, 0x02] [] :=
  ⟨by decide, by decide, ready_fresh [_, _, _] _, ready_fresh [_, _, _] _⟩
theorem witness_SkipTwoDiscardsItsPayload : Ready (fresh [0x1B, 0x63, 0x00, 0x1E, 0x1E]) [0x1B, 0x63, 0x00, 0x1E] [0x1E] :=
  ready_fresh [_, _, _, _] _
-- V32, and the long-form neighbours of 1, 49 and 48: V33, V34, V35
theorem witness_CutFormsEmitTheirEvents :
    (∀ m ∈ ([0, 1, 49] : List Byte), (m = 0 ∨ m = 1 ∨ m = 49) ∧ Ready (fresh [0x1D, 0x56, m]) [0x1D, 0x56, m] []) ∧
    (∀ m ∈ ([2, 48, 50] : List Byte), m ≠ 0 ∧ m ≠ 1 ∧ m ≠ 49 ∧
      Ready (fresh [0x1D, 0x56, m, 0x1E, 0x1E]) [0x1D, 0x56, m, 0x1E] [0x1E] ∧
      Ready { fresh [0x1D, 0x56, m] with closed := true } [0x1D, 0x56, m] []) :=
  ⟨fun m hm => ⟨by simpa using hm, ready_fresh [_, _, _] _⟩,
    fun m hm => by
      simp only [List.mem_cons, List.not_mem_nil, or_false] at hm
      rcases hm with rfl | rfl | rfl <;> 
      exact ⟨by decide, by decide, by decide, ready_fresh [_, _, _, _] _, ⟨rfl, rfl, rfl, rfl⟩⟩⟩
theorem witness_CutLengthFollowsItsFirstByte : ∀ m ∈ ([0, 1, 49, 2, 48, 50] : List Byte),
    (inPayload 0x1D 0x56 noFields 0 [m]).phase = .payload ∧ (inPayload 0x1D 0x56 noFields 0 [m]).halted = false ∧
    (inPayload 0x1D 0x56 noFields 0 [m]).turns = [] ∧ (inPayload 0x1D 0x56 noFields 0 [m]).nf = 0 ∧
    (inPayload 0x1D 0x56 noFields 0 [m]).buf = m :: [] := fun _ _ => ⟨rfl, rfl, rfl, rfl, rfl⟩
theorem witness_StatusEmitsAndAcknowledges : Ready (fresh [0x1D, 0x61, 0x0F]) [0x1D, 0x61, 0x0F] [] :=
  ready_fresh [_, _, _] _
-- V4 and V82: a second byte that is a single-byte command, and a first byte that is no prefix
theorem witness_UnknownPairSetsOnlyItsBit :
    ((0x1B : Byte) ≠ 0x00 ∧ (0x1B : Byte) ≠ 0x1E ∧ lookup 0x1B 0x1E = none ∧ Ready (fresh [0x1B, 0x1E]) [0x1B, 0x1E] []) ∧
    ((0x41 : Byte) ≠ 0x00 ∧ (0x41 : Byte) ≠ 0x1E ∧ lookup 0x41 0x42 = none ∧ Ready (fresh [0x41, 0x42]) [0x41, 0x42] []) :=
  ⟨⟨by decide, by decide, by decide, ready_fresh [_, _] _⟩, ⟨by decide, by decide, by decide, ready_fresh [_, _] _⟩⟩

/-- A `1D76` whose sixth header byte is next, with width 2 and low height byte `hl`. -/
def atSixth (hl b : Byte) : State := inPayload 0x1D 0x76 #v[0x30, 0, 2, 0, hl, 0] 5 [b]

-- both clauses: a count of zero, and the smallest and a larger one that is not
theorem witness_SixthHeaderByteLoadsTheCount :
    ((atSixth 0 0).phase = .payload ∧ (atSixth 0 0).halted = false ∧ (atSixth 0 0).turns = [] ∧
      (atSixth 0 0).b0 = 0x1D ∧ (atSixth 0 0).b1 = 0x76 ∧ (atSixth 0 0).nf = 5 ∧ (atSixth 0 0).buf = 0 :: []) ∧
    (∃ t, step (atSixth 0 0) = .next t ∧ t.cnt = 0) ∧ (∃ t, step (atSixth 1 0) = .next t ∧ t.cnt = 2) ∧
    (∃ t, step (atSixth 0 1) = .next t ∧ t.cnt = 512) :=
  ⟨by decide, ⟨_, rfl, by decide⟩, ⟨_, rfl, by decide⟩, ⟨_, rfl, by decide⟩⟩
-- both clauses: a byte to come after this one, and none
theorem witness_RasterByteIsStoredNotInterpreted : ∀ c ∈ ([2, 1] : List Count),
    Inv (inImage c [0x1E]) ∧ (inImage c [0x1E]).phase = .rdata ∧ (inImage c [0x1E]).halted = false ∧
    (inImage c [0x1E]).turns = [] ∧ (inImage c [0x1E]).buf = 0x1E :: [] ∧ (inImage c [0x1E]).cnt = c :=
  fun c hc => ⟨inv_inImage c (by simp only [List.mem_cons, List.not_mem_nil, or_false] at hc; exact hc.symm) _,
    rfl, rfl, rfl, rfl, rfl⟩
theorem witness_RasterCommandEmitsItsImage :
    ([0x81, 0x18] : List Byte).length = (1 : Half).toNat * (2 : Half).toNat ∧
    Ready (fresh [0x1D, 0x76, 0x30, 0, 1, 0, 2, 0, 0x81, 0x18, 0x1E]) [0x1D, 0x76, 0x30, 0, 1, 0, 2, 0, 0x81, 0x18] [0x1E] ∧
    ([] : List Byte).length = (5 : Half).toNat * (0 : Half).toNat ∧
    Ready (fresh [0x1D, 0x76, 0x31, 3, 5, 0, 0, 0]) [0x1D, 0x76, 0x31, 3, 5, 0, 0, 0] [] :=
  ⟨rfl, ready_fresh [_, _, _, _, _, _, _, _, _, _] _, rfl, ready_fresh [_, _, _, _, _, _, _, _] _⟩
-- V69
theorem witness_PixelIsOneBitOfItsByte :
    ([0x81, 0xFF, 0x00, 0x18, 0xA5, 0x0F] : List Byte).length = (2 : Half).toNat * (3 : Half).toNat ∧
    2 < (3 : Half).toNat ∧ 1 < (2 : Half).toNat ∧ 7 < 8 := by decide
theorem witness_RowsAndPixelsAgree :
    ([0x81, 0xFF, 0x00, 0x18, 0xA5, 0x0F] : List Byte).length = (2 : Half).toNat * (3 : Half).toNat ∧
    2 < (3 : Half).toNat ∧ 15 < 8 * (2 : Half).toNat := by decide

end Sys2Proof.Tests
end

section
/-! ### Sequences of steps: sequencing of outcomes, and properties that every step keeps -/

namespace Sys2Proof.Machine

/-- An outcome and then a further run from its next state; a stop stays as it is. -/
def andThen (r : Result) (g : State → Result) : Result :=
  match r with
  | .next t => g t
  | .fault r => .fault r
  | .refused r => .refused r

@[simp] theorem andThen_next (t : State) (g : State → Result) : andThen (.next t) g = g t := rfl

@[simp] theorem mapNext_next (g : State → State) (t : State) : mapNext g (.next t) = .next (g t) := rfl

theorem andThen_mapNext (r : Result) (f : State → State) (g : State → Result) :
    andThen (mapNext f r) g = andThen r (fun t => g (f t)) := by
  cases r <;> rfl

/-- Two continuations that agree on the next state give the same outcome. -/
theorem andThen_congr {r : Result} {f g : State → Result} (h : ∀ t, r = .next t → f t = g t) :
    andThen r f = andThen r g := by
  cases r with
  | next t => exact h t rfl
  | fault _ => rfl
  | refused _ => rfl

theorem mapNext_mapNext (f g : State → State) (r : Result) : mapNext g (mapNext f r) = mapNext (fun t => g (f t)) r := by
  cases r <;> rfl

theorem steps_succ (n : Nat) (s : State) : steps (n + 1) s = andThen (step s) (steps n) := by
  rw [steps]
  cases step s <;> rfl

/-- With a move listed first, a step is that move and the list is one shorter. -/
theorem step_turns_cons (m : Move) (ms : List Move) (s : State) :
    step { s with turns := m :: ms } = move m { s with turns := ms } := rfl

/-- What every step keeps, any number of steps keeps. -/
theorem steps_keeps {P : State → Prop} (hstep : ∀ s t, P s → step s = .next t → P t) {n : Nat} {s t : State}
    (hs : P s) (h : steps n s = .next t) : P t := by
  induction n generalizing s with
  | zero => cases h; exact hs
  | succ n ih =>
    rw [steps_succ] at h
    cases hu : step s with
    | next u => rw [hu] at h; exact ih (hstep s u hs hu) h
    | fault r => rw [hu] at h; cases h
    | refused r => rw [hu] at h; cases h

end Sys2Proof.Machine
end

section
/-! ### The decoder while no close is due (00_scope.md R14) -/

namespace Sys2Proof.Machine

/-- The stream is open, the decoder runs, and no close stands among the turns to come. -/
structure OpenAndRunning (s : State) : Prop where
  isOpen : s.closed = false
  running : s.halted = false
  noClose : Move.close ∉ s.turns

/-- A decoder step on an open stream neither closes nor halts: the end-of-stream step needs `CLOSED`. -/
theorem openAndRunning_of_decoderStep {s t : State} (hs : OpenAndRunning s) (h : decoderStep s = .next t) :
    OpenAndRunning t := by
  obtain ⟨hturns, hclosed, -, -, hhalt⟩ := decoderStep_queue h
  refine ⟨hclosed.trans hs.isOpen, ?_, hturns ▸ hs.noClose⟩
  by_contra hth
  have hc : s.closed = true := (hhalt hs.running (by simpa using hth)).1
  simp [hs.isOpen] at hc

/-- Every step keeps the stream open and the decoder running, whoever has the turn. -/
theorem openAndRunning_of_step {s t : State} (hs : OpenAndRunning s) (h : step s = .next t) : OpenAndRunning t := by
  cases hm : s.turns with
  | nil => exact openAndRunning_of_decoderStep hs (step_of_no_turns hm ▸ h)
  | cons m rest =>
    obtain ⟨hm', hrest⟩ : Move.close ≠ m ∧ Move.close ∉ rest := by simpa [hm] using hs.noClose
    have hs' : OpenAndRunning { s with turns := rest } := ⟨hs.isOpen, hs.running, hrest⟩
    cases m with
    | push b =>
      rw [step_push hm] at h
      cases h
      exact ⟨by simpa using hs'.isOpen, by simpa using hs'.running, by simpa using hrest⟩
    | close => exact absurd rfl hm'
    | decode => exact openAndRunning_of_decoderStep hs' (step_decode hm ▸ h)

/-- Settles O19: every step keeps an open stream with no close among the turns open and running. -/
theorem openStreamNeverHalts : Obligations.OpenStreamNeverHalts := by
  intro n s t hopen hrun hclose h
  have ht : OpenAndRunning t := steps_keeps (fun _ _ => openAndRunning_of_step) ⟨hopen, hrun, hclose⟩ h
  exact ⟨ht.isOpen, ht.running⟩

end Sys2Proof.Machine
end

section
/-! ### Producer moves and decoder steps commute (00_scope.md R12)

Every schedule is brought to one form: the producer makes all its moves first, then the decoder runs until it rests. A
decoder step and a producer's move commute, except that a starved decoder's step is undone by the move, which resolves
the request (`decoderStep_produce`). -/

namespace Sys2Proof.Machine

/-! #### What touches only the queue commutes with `delta` -/

/-- `g` reads and writes only the queue, the stream status and the turns. -/
def OnlyQueue (g : State → State) : Prop := ∀ s t, withQueue (g s) t = g (withQueue s t)

theorem delta_onlyQueue {g : State → State} (hg : OnlyQueue g) (b : Byte) (s : State) :
    delta b (g s) = mapNext g (delta b s) := by
  have hself : withQueue s s = s := rfl
  calc delta b (g s)
      = delta b (withQueue (g s) s) := by rw [hg, hself]
    _ = mapNext (withQueue (g s)) (delta b s) := delta_withQueue ..
    _ = mapNext (fun t => g (withQueue s t)) (delta b s) := by rw [funext (hg s)]
    _ = mapNext g (delta b (withQueue s s)) := by rw [delta_withQueue, mapNext_mapNext]
    _ = mapNext g (delta b s) := by rw [hself]

/-- The turns to come do not matter to a decoder step, which leaves them as they are. -/
theorem decoderStep_turns (ms : List Move) (s : State) :
    decoderStep { s with turns := ms } = mapNext (fun t => { t with turns := ms }) (decoderStep s) := by
  rcases decoderStep_cases s with ⟨hh, he⟩ | ⟨hh, b, rest, hb, he⟩ | ⟨hh, hb, hc, he⟩ | ⟨hh, hb, hc, he⟩
  · rw [he]
    exact decoderStep_halted hh
  · rw [he, ← delta_onlyQueue fun _ _ => rfl]
    exact decoderStep_byte hh hb
  · rw [he]
    exact decoderStep_eos hh hb hc
  · rw [he]
    exact decoderStep_starved hh hb hc

/-! #### The producer's moves -/

/-- What a move does on the producer's side: a decoder step has no part in it. -/
def produce (m : Move) (s : State) : State :=
  match m with
  | .push b => push b s
  | .close => close s
  | .decode => s

/-- All the producer's moves among `ms`, one after the other. -/
def supply (ms : List Move) (s : State) : State := ms.foldl (fun s m => produce m s) s

@[simp] theorem supply_nil (s : State) : supply [] s = s := rfl

@[simp] theorem supply_cons (m : Move) (ms : List Move) (s : State) : supply (m :: ms) s = supply ms (produce m s) := rfl

theorem supply_producerMoves (ms : List Move) (s : State) : supply (producerMoves ms) s = supply ms s := by
  induction ms generalizing s with
  | nil => rfl
  | cons m ms ih =>
    cases m with
    | push b => exact ih (push b s)
    | close => exact ih (close s)
    | decode => exact ih s

theorem move_eq_produce {m : Move} (h : m ≠ .decode) (s : State) : move m s = .next (produce m s) := by
  cases m with
  | push b => rfl
  | close => rfl
  | decode => exact absurd rfl h

/-- After `close` the producer changes nothing more (20_memory.md R56, R63). -/
theorem produce_of_closed (m : Move) {s : State} (h : s.closed = true) : produce m s = s := by
  cases m <;> simp [produce, push, close, h]

theorem onlyQueue_produce (m : Move) : OnlyQueue (produce m) := by
  intro s t
  by_cases hc : s.closed = true
  · rw [produce_of_closed m hc, produce_of_closed m (s := withQueue s t) hc]
  · cases m <;> simp [produce, push, close, withQueue, hc]

theorem produce_turns (m : Move) (ms : List Move) (s : State) :
    produce m { s with turns := ms } = { produce m s with turns := ms } := by
  by_cases hc : s.closed = true
  · rw [produce_of_closed m hc, produce_of_closed m (s := { s with turns := ms }) hc]
  · cases m <;> simp [produce, push, close, hc]

@[simp] theorem produce_keeps_turns (m : Move) (s : State) : (produce m s).turns = s.turns := by
  cases m <;> simp [produce]

@[simp] theorem produce_halted (m : Move) (s : State) : (produce m s).halted = s.halted := by
  cases m <;> simp [produce]

/-- A move puts at most one byte at the end of the queue. -/
theorem produce_buf (m : Move) (s : State) : ∃ bs, bs.length ≤ 1 ∧ (produce m s).buf = s.buf ++ bs := by
  cases m with
  | push b => by_cases hc : s.closed <;> simp [produce, hc]
  | close => exact ⟨[], by simp [produce]⟩
  | decode => exact ⟨[], by simp [produce]⟩

/-- The producer works at the end of the queue, the decoder at its head. -/
theorem consume_produce (m : Move) {s : State} (h : s.buf ≠ []) : consume (produce m s) = produce m (consume s) := by
  by_cases hc : s.closed = true
  · rw [produce_of_closed m hc, produce_of_closed m ((consume_closed s).trans hc)]
  · cases m <;> simp [produce, push, close, consume, hc, List.tail_append_of_ne_nil h]

/-- On an open stream a push or a close resolves the outstanding request (20_memory.md R55, R61). -/
theorem produce_wait {m : Move} (hm : m ≠ .decode) {s : State} (h : s.closed = false) :
    produce m { s with wait := true } = produce m s := by
  cases m with
  | push b => simp [produce, push, h]
  | close => simp [produce, close, h]
  | decode => exact absurd rfl hm

/-- A decoder step and a producer's move commute, or the decoder is starved and the move undoes its step. -/
theorem decoderStep_produce (m : Move) (s : State) :
    decoderStep (produce m s) = mapNext (produce m) (decoderStep s) ∨
    ∃ t, decoderStep s = .next t ∧ produce m t = produce m s := by
  rcases decoderStep_cases s with ⟨hh, he⟩ | ⟨hh, b, rest, hb, he⟩ | ⟨hh, hb, hc, he⟩ | ⟨hh, hb, hc, he⟩
  · exact .inr ⟨s, he, rfl⟩
  · obtain ⟨bs, -, hbuf⟩ := produce_buf m s
    have hne : s.buf ≠ [] := by simp [hb]
    rw [hb, List.cons_append] at hbuf
    rw [he, decoderStep_byte ((produce_halted m s).trans hh) hbuf, consume_produce m hne,
      delta_onlyQueue (onlyQueue_produce m)]
    exact .inl rfl
  · left
    rw [produce_of_closed m hc, he, mapNext_next,
      produce_of_closed m (s := { s with halted := true, phase := .halt }) hc]
  · by_cases hm : m = .decode
    · subst hm
      rw [he]
      exact .inl he
    · exact .inr ⟨_, he, produce_wait hm hc⟩

/-! #### The decoder alone -/

/-- The decoder alone, for as many steps as bring it to rest. -/
def drained (s : State) : Result := steps (s.buf.length + 1) s

/-- A decoder that a step leaves as it is stays so for any number of steps. -/
theorem steps_of_rest {s : State} (ht : s.turns = []) (h : decoderStep s = .next s) (n : Nat) : steps n s = .next s := by
  induction n with
  | zero => rfl
  | succ n ih => rw [steps_succ, step_of_no_turns ht, h, andThen_next, ih]

/-- A decoder step consumes a byte or comes to rest. -/
theorem decoderStep_consumes_or_rests {s t : State} (h : decoderStep s = .next t) :
    t.buf.length + 1 = s.buf.length ∨ decoderStep t = .next t := by
  rcases decoderStep_cases s with ⟨hh, he⟩ | ⟨hh, b, rest, hb, he⟩ | ⟨hh, hb, hc, he⟩ | ⟨hh, hb, hc, he⟩
  · rw [he] at h; cases h; exact .inr he
  · left
    rw [he] at h
    rw [(delta_frame h).1, consume_buf, hb]
    rfl
  · rw [he] at h; cases h; exact .inr (decoderStep_halted rfl)
  · rw [he] at h; cases h; exact .inr (decoderStep_starved hh hb hc)

/-- The decoder alone ends the same after any number of steps that is large enough. -/
theorem steps_eq_drained {n : Nat} {s : State} (ht : s.turns = []) (hn : s.buf.length + 1 ≤ n) :
    steps n s = drained s := by
  induction n generalizing s with
  | zero => omega
  | succ n ih =>
    rw [drained, steps_succ, steps_succ]
    refine andThen_congr fun t h => ?_
    rw [step_of_no_turns ht] at h
    have htt : t.turns = [] := (decoderStep_queue h).1.trans ht
    rcases decoderStep_consumes_or_rests h with hlen | hrest
    · rw [← hlen]
      exact ih htt (by omega)
    · rw [steps_of_rest htt hrest, steps_of_rest htt hrest]

theorem decoderStep_buf_length_le {s t : State} (h : decoderStep s = .next t) : t.buf.length ≤ s.buf.length := by
  obtain ⟨-, -, ⟨hbuf, -⟩ | ⟨-, -, b, hbuf⟩, -⟩ := decoderStep_queue h <;> simp [hbuf]

/-- Running the decoder alone begins with one decoder step. -/
theorem drained_eq_decoderStep {s : State} (ht : s.turns = []) : drained s = andThen (decoderStep s) drained := by
  rw [← steps_eq_drained ht (Nat.le_succ _), steps_succ, step_of_no_turns ht]
  refine andThen_congr fun t h => steps_eq_drained ((decoderStep_queue h).1.trans ht) ?_
  have := decoderStep_buf_length_le h
  omega

/-! #### Every schedule is the producer first and the decoder after it -/

/-- One decoder step before the producer's moves makes no difference to how the session ends. -/
theorem drained_supply_eq_decoderStep (ms : List Move) {s : State} (ht : s.turns = []) :
    drained (supply ms s) = andThen (decoderStep s) (fun t => drained (supply ms t)) := by
  induction ms generalizing s with
  | nil => exact drained_eq_decoderStep ht
  | cons m ms ih =>
    simp only [supply_cons]
    rcases decoderStep_produce m s with hcomm | ⟨t, hstarved, hundone⟩
    · rw [ih ((produce_keeps_turns m s).trans ht), hcomm, andThen_mapNext]
    · rw [hstarved, andThen_next, hundone]

/-- Any schedule ends as the one in which the producer makes all its moves first. -/
theorem steps_eq_drained_supply (ms : List Move) {n : Nat} {s : State} (ht : s.turns = [])
    (hn : 2 * ms.length + s.buf.length + 1 ≤ n) : steps n { s with turns := ms } = drained (supply ms s) := by
  induction ms generalizing n s with
  | nil =>
    have hs : { s with turns := [] } = s := by rw [← ht]
    rw [hs]
    exact steps_eq_drained ht (by simpa using hn)
  | cons m ms ih =>
    rw [List.length_cons] at hn
    obtain ⟨k, rfl⟩ : ∃ k, n = k + 1 := ⟨n - 1, by omega⟩
    rw [steps_succ, step_turns_cons]
    by_cases hm : m = .decode
    · subst hm
      calc andThen (decoderStep { s with turns := ms }) (steps k)
          = andThen (decoderStep s) (fun t => steps k { t with turns := ms }) := by
            rw [decoderStep_turns, andThen_mapNext]
        _ = andThen (decoderStep s) (fun t => drained (supply ms t)) := andThen_congr fun t h => by
            have := decoderStep_buf_length_le h
            exact ih ((decoderStep_queue h).1.trans ht) (by omega)
        _ = drained (supply ms s) := (drained_supply_eq_decoderStep ms ht).symm
    · obtain ⟨bs, hbs, hbuf⟩ := produce_buf m s
      have hlen : (produce m s).buf.length ≤ s.buf.length + 1 := by rw [hbuf, List.length_append]; omega
      rw [move_eq_produce hm, andThen_next, produce_turns, supply_cons]
      exact ih ((produce_keeps_turns m s).trans ht) (by omega)

/-- Settles O13: both schedules end as the one in which the producer makes all its moves first, and its moves are the
same in both. -/
theorem outcomeIsFreeOfInterleaving : Obligations.OutcomeIsFreeOfInterleaving := by
  intro s ms ns hprod n hn
  have hend : ∀ l : List Move, 2 * l.length + s.buf.length + 1 ≤ n →
      steps n { s with turns := l } = drained (supply (producerMoves l) { s with turns := [] }) := fun l hl => by
    rw [supply_producerMoves]
    exact steps_eq_drained_supply (s := { s with turns := [] }) l rfl hl
  rw [hend ms (by omega), hend ns (by omega), hprod]

end Sys2Proof.Machine
end

section
/-! ### Whose turn it is, and what a step can do -/

namespace Sys2Proof.Machine

/-- A step is the next listed move, or a decoder step when none is listed. -/
theorem step_eq_move (s : State) : step s = move (s.turns.headD .decode) { s with turns := s.turns.tail } := by
  cases h : s.turns with
  | nil =>
    have hs : { s with turns := [] } = s := by rw [← h]
    rw [step_of_no_turns h, List.tail_nil, hs]
    rfl
  | cons m rest => simp [step, h]

/-- The three things a step can be: a push, a close, or a decoder step. -/
theorem step_cases {s t : State} (h : step s = .next t) :
    (∃ b rest, s.turns = .push b :: rest ∧ t = push b { s with turns := rest }) ∨
    (∃ rest, s.turns = .close :: rest ∧ t = close { s with turns := rest }) ∨
    ((s.turns = [] ∨ ∃ rest, s.turns = .decode :: rest) ∧
      decoderStep { s with turns := s.turns.tail } = .next t) := by
  rw [step_eq_move] at h
  cases hm : s.turns with
  | nil => rw [hm] at h; exact .inr (.inr ⟨.inl rfl, h⟩)
  | cons m rest =>
    rw [hm] at h
    cases m with
    | push b => exact .inl ⟨b, rest, rfl, (Host.Outcome.next.inj h).symm⟩
    | close => exact .inr (.inl ⟨rest, rfl, (Host.Outcome.next.inj h).symm⟩)
    | decode => exact .inr (.inr ⟨.inr ⟨rest, rfl⟩, h⟩)

/-- A decoder step sets `UNKSEEN` only by the second byte of a pair that is not in the table (10_state.md R33). -/
theorem decoderStep_unkSeen {s t : State} (h : decoderStep s = .next t) :
    t.unkSeen = s.unkSeen ∨
    (t.unkSeen = true ∧ s.phase = .op1 ∧ s.halted = false ∧ ∃ b rest, s.buf = b :: rest ∧ lookup s.b0 b = none) := by
  rcases decoderStep_cases s with ⟨_, he⟩ | ⟨hr, b, rest, hb, he⟩ | ⟨_, _, _, he⟩ | ⟨_, _, _, he⟩
  · rw [he] at h; cases h; exact .inl rfl
  · rw [he] at h
    rcases delta_outputs h with ⟨_, _, hu⟩ | ⟨i, hc, _, _, hu⟩
    · exact .inl hu
    · rcases hc with ⟨_, ⟨_, rfl⟩ | ⟨_, rfl⟩⟩ | ⟨hp, hl, rfl⟩ | ⟨_, _, op, data, rfl, _⟩
      · exact .inl (hu.trans (Bool.or_false _))
      · exact .inl (hu.trans (Bool.or_false _))
      · exact .inr ⟨hu.trans (Bool.or_true _), hp, hr, b, rest, hb, hl⟩
      · rw [isUnknown_operands, Bool.or_false] at hu
        exact .inl hu
  · rw [he] at h; cases h; exact .inl rfl
  · rw [he] at h; cases h; exact .inl rfl

/-- Settles O23: the producer leaves `UNKSEEN` as it is, and `decoderStep_unkSeen` says what the decoder does. -/
theorem unknownSeenIsSetOnlyByUnknownPairs : Obligations.UnknownSeenIsSetOnlyByUnknownPairs := by
  intro s t h
  rcases step_cases h with ⟨b, rest, _, rfl⟩ | ⟨rest, _, rfl⟩ | ⟨_, hd⟩
  · simp_all
  · simp_all
  · rcases decoderStep_unkSeen hd with hu | ⟨hu, hcause⟩
    · simp_all
    · exact ⟨fun _ => hu, fun _ _ => hcause⟩

/-- Settles O24: a push sets neither bit, a close only `CLOSED`, and a decoder step only `HALTED`, on a closed and
empty queue. -/
theorem closedAndHaltedAreSetOnce : Obligations.ClosedAndHaltedAreSetOnce := by
  intro s t h
  rcases step_cases h with ⟨b, rest, _, rfl⟩ | ⟨rest, hturns, rfl⟩ | ⟨hturn, hd⟩
  · simp_all
  · simp_all
  · obtain ⟨-, hclosed, -, hfinal, hhalt⟩ := decoderStep_queue hd
    refine ⟨fun hc => hclosed.trans hc, fun hh => ?_, fun ho hc => ?_, fun hr hh => ?_⟩
    · rw [hfinal hh]; exact hh
    · exact absurd (hclosed.symm.trans hc) (by simp [ho])
    · obtain ⟨hc, hb⟩ := hhalt hr hh
      exact ⟨hc, hb, hturn⟩

/-- Settles O25: a push appends to the queue, a close leaves it, and a decoder step takes at most its oldest byte. -/
theorem positionCountsConsumedBytes : Obligations.PositionCountsConsumedBytes := by
  intro s t h
  rcases step_cases h with ⟨b, rest, _, rfl⟩ | ⟨rest, _, rfl⟩ | ⟨_, hd⟩
  · left
    by_cases hc : s.closed <;> simp [hc]
  · left
    simp
  · obtain ⟨-, -, ⟨hbuf, hpos⟩ | ⟨-, hpos, hbuf⟩, -⟩ := decoderStep_queue hd
    · exact .inl ⟨hpos, by rw [hbuf]⟩
    · exact .inr ⟨hpos, hbuf⟩

end Sys2Proof.Machine
end

section
/-! ### Session start and sessions side by side (10_state.md R39, R41) -/

namespace Sys2Proof.Machine

/-- Settles O1: the rows of R39 that give a value are `State.reset` written out. -/
theorem resetLeavesTheSpecifiedValues : Obligations.ResetLeavesTheSpecifiedValues :=
  ⟨rfl, rfl, rfl, rfl, rfl, rfl, rfl, rfl, rfl⟩

/-- A move in a session replaces at most that session's state. -/
theorem sessionMove_cases {k : Nat} {m : Move} {ss ts : Sessions} (h : sessionMove k m ss = .next ts) :
    ts = ss ∨ ∃ t, ts = ss.set k (some t) := by
  unfold sessionMove at h
  split at h
  · split at h
    · cases h; exact .inr ⟨_, rfl⟩
    · cases h
    · cases h
  · cases h; exact .inl rfl

/-- Discarding a session touches that session at most. -/
theorem teardown_cases (k : Nat) (ss : Sessions) : teardown k ss = ss ∨ teardown k ss = ss.set k none := by
  unfold teardown
  split
  · split
    · exact .inr rfl
    · exact .inl rfl
  · exact .inl rfl

theorem teardown_running {k : Nat} {ss : Sessions} {s : State} (hk : ss[k]? = some (some s)) (h : s.halted = false) :
    teardown k ss = ss := by
  simp [teardown, hk, h]

/-- Settles O33: a move and a teardown set one entry of the list of sessions, and accepting appends one. -/
theorem sessionsShareNothing : Obligations.SessionsShareNothing := by
  intro k m ss ts
  refine ⟨fun h => ?_, ⟨?_, fun j hj => ?_⟩, fun j hj => ?_, fun s hk hr => teardown_running hk hr⟩
  · rcases sessionMove_cases h with rfl | ⟨t, rfl⟩
    · exact ⟨rfl, fun _ _ => rfl⟩
    · exact ⟨List.length_set, fun j hj => List.getElem?_set_ne hj.symm⟩
  · simp [accept]
  · exact List.getElem?_append_left hj
  · rcases teardown_cases k ss with he | he <;> rw [he]
    exact List.getElem?_set_ne hj.symm

end Sys2Proof.Machine
end

section
/-! ### The valid latches, and what one byte makes of them (10_state.md R23, 30_encoding.md R110)

From latches that are valid for their phase, a byte either completes a command, whose handler then runs on the state
with the byte stored, or is only stored; which of the two, and which command, is what the decoder of byte strings
reads from `commandBytes` and that byte (`byte_retires_or_awaits`). -/

namespace Sys2Proof.Machine

/-! #### The decoder of byte strings on the first two bytes and on a payload -/

theorem ne_of_not_isSingleByte {b : Byte} (h : isSingleByte b = false) : b ≠ 0x00 ∧ b ≠ 0x1E := by
  rw [← not_or, ← isSingleByte_iff, h]
  exact Bool.false_ne_true

theorem decode_first {b : Byte} (hs : isSingleByte b = false) : decode [b] = .error .noSecondByte := by
  obtain ⟨h0, h1⟩ := ne_of_not_isSingleByte hs
  rw [decode, if_neg h0, if_neg h1]

theorem decode_unknown {b0 b1 : Byte} (r : List Byte) (hs : isSingleByte b0 = false) (h : lookup b0 b1 = none) :
    decode (b0 :: b1 :: r) = .ok (.unk b0 b1, r) := by
  obtain ⟨h0, h1⟩ := ne_of_not_isSingleByte hs
  simp only [decode, h]
  rw [if_neg h0, if_neg h1]

theorem decode_table {b0 b1 : Byte} {op : Opcode} (r : List Byte) (h : lookup b0 b1 = some op) :
    decode (b0 :: b1 :: r) = decodePayload op r := by
  obtain ⟨h0, h1⟩ := ne_of_not_isSingleByte (not_single_of_lookup h)
  simp only [decode, h]
  rw [if_neg h0, if_neg h1]

/-- The field latches as a list. -/
theorem fields_toList (v : Vector Byte 6) : v.toList = [v[0], v[1], v[2], v[3], v[4], v[5]] := by
  apply List.ext_getElem
  · simp
  · intro i h1 h2
    simp only [Vector.length_toList] at h1
    rw [Vector.getElem_toList]
    interval_cases i <;> rfl

/-- Fewer field bytes than `need` are no payload yet. -/
theorem decodePayload_short {op : Opcode} {v : Vector Byte 6} {n : Nat} (h : n < need op v[0]) :
    decodePayload op (v.toList.take n) = .error (.payloadShort op) := by
  rw [fields_toList]
  cases op with
  | init => simp [need] at h
  | pmode | feed | charset | reverse | codepage | status =>
    obtain rfl : n = 0 := by simpa [need] using h
    rfl
  | skip2 | units =>
    have hn : n < 2 := h
    interval_cases n <;> rfl
  | cut =>
    cases hm : isShortCut v[0] with
    | true =>
      obtain rfl : n = 0 := by simpa [need, hm] using h
      rfl
    | false =>
      have hn : n < 2 := by simpa [need, hm] using h
      interval_cases n
      · rfl
      · simp [decodePayload, hm]
  | raster =>
    have hn : n < 6 := h
    interval_cases n <;> rfl

/-- Exactly `need` field bytes are the payload of a command without raster data, with the operands of R26. -/
theorem decodePayload_complete {op : Opcode} {s : State} (hr : op ≠ .raster) :
    decodePayload op (s.f.toList.take (need op s.f[0])) = .ok (operands op [] s, []) := by
  rw [fields_toList]
  cases op with
  | raster => exact absurd rfl hr
  | cut => cases hm : isShortCut s.f[0] <;> simp [need, hm, operands, decodePayload]
  | init | pmode | feed | charset | reverse | codepage | status | skip2 | units => rfl

theorem decodePayload_raster_short {s : State} {data : List Byte}
    (h : data.length < rasterBytes (width s) (height s)) :
    decodePayload .raster (s.f.toList ++ data) = .error (.payloadShort .raster) := by
  rw [fields_toList]
  exact if_pos h

theorem decodePayload_raster_complete {s : State} {data : List Byte}
    (h : data.length = rasterBytes (width s) (height s)) :
    decodePayload .raster (s.f.toList ++ data) = .ok (operands .raster data s, []) := by
  have hd : decodePayload .raster (s.f.toList ++ data) =
      .ok (.raster s.f[0] s.f[1] (width s) (height s) (data.take (rasterBytes (width s) (height s))),
        data.drop (rasterBytes (width s) (height s))) := by
    rw [fields_toList]
    exact if_neg (Nat.not_lt.2 h.ge)
  rw [hd, ← h, List.take_length, List.drop_length]
  rfl

/-- The command in the latches is well-formed if its image, where it has one, has `W*H` bytes. -/
theorem operands_wellFormed {op : Opcode} {data : List Byte} {s : State}
    (h : op = .raster → data.length = rasterBytes (width s) (height s)) : (operands op data s).wellFormed = true := by
  cases op with
  | raster => simpa [operands, Instr.wellFormed] using h rfl
  | cut => cases hm : isShortCut s.f[0] <;> simp [operands, Instr.wellFormed, hm]
  | init | pmode | feed | charset | reverse | codepage | status | skip2 | units => rfl

/-! #### The latches that are valid in each phase -/

/-- The clauses of `Inv` about the latches valid in the present phase. -/
structure LatchesOk (s : State) : Prop where
  op1First : s.phase = .op1 → isSingleByte s.b0 = false
  payloadFields : s.phase = .payload → ∃ op, opcode s = some op ∧ s.nf.val < need op s.f[0]
  rdataCounts : s.phase = .rdata → opcode s = some .raster ∧ s.nf.val = 6 ∧ 1 ≤ s.cnt.toNat ∧
    s.idx.toNat + s.cnt.toNat = rasterBytes (width s) (height s)
  rdataWritten : s.phase = .rdata → (s.rb.readRange 0 s.idx.toNat).isSome = true

theorem Inv.latchesOk {s : State} (hs : Inv s) : LatchesOk s :=
  ⟨hs.op1First, hs.payloadFields, hs.rdataCounts, hs.rdataWritten⟩

theorem LatchesOk.of_op0 {s : State} (hp : s.phase = .op0) : LatchesOk s := by
  constructor <;> simp [hp]

/-- The byte completes the command that `decode` reads, and the step is its handler on the latched state. -/
def Retires (b : Byte) (s : State) : Prop :=
  ∃ i, i.wellFormed = true ∧ decode (commandBytes s ++ [b]) = .ok (i, []) ∧ delta b s = exec i (latched b s)

/-- The byte completes nothing, and the step only stores it and leaves valid latches. -/
def Awaits (b : Byte) (s : State) : Prop :=
  ∃ p e, p ≠ .op0 ∧ p ≠ .halt ∧ decode (commandBytes s ++ [b]) = .error e ∧
    delta b s = .next (await p (latched b s)) ∧
    commandBytes (await p (latched b s)) = commandBytes s ++ [b] ∧ LatchesOk (await p (latched b s))

theorem await_self {p : Phase} {s : State} (h : s.phase = p) : await p s = s := by
  subst h
  rfl

/-! #### OP0 -/

theorem byte_op0 {b : Byte} {s : State} (hp : s.phase = .op0) : Retires b s ∨ Awaits b s := by
  have hc : commandBytes s = [] := by simp [commandBytes, hp]
  cases hb : isSingleByte b with
  | true =>
    have hl : latched b s = s := by simp [latched, hp, hb]
    left
    rcases (isSingleByte_iff b).1 hb with rfl | rfl
    · exact ⟨.idle, rfl, by rw [hc]; rfl, by rw [hl, delta_op0_idle hp]⟩
    · exact ⟨.buzz, rfl, by rw [hc]; rfl, by rw [hl, delta_op0_buzz hp]⟩
  | false =>
    have hl : latched b s = latchFirst b s := by simp [latched, hp, hb]
    refine .inr ⟨.op1, .noSecondByte, by simp, by simp, by rw [hc]; exact decode_first hb,
      by rw [hl, delta_op0_open hp hb], by rw [hl, hc]; rfl, ?_⟩
    rw [hl]
    constructor <;> simp [hb]

/-! #### OP1 -/

theorem byte_op1 {b : Byte} {s : State} (hs : LatchesOk s) (hp : s.phase = .op1) : Retires b s ∨ Awaits b s := by
  have hc : commandBytes s ++ [b] = [s.b0, b] := by simp [commandBytes, hp]
  have hl : latched b s = latchSecond b s := by simp [latched, hp]
  have hb0 := hs.op1First hp
  cases ho : lookup s.b0 b with
  | none =>
    exact .inl ⟨.unk s.b0 b, by simp [Instr.wellFormed, hb0, ho], by rw [hc, decode_unknown [] hb0 ho],
      by rw [hl, delta_op1_unknown hp ho]⟩
  | some op =>
    by_cases hi : op = .init
    · subst hi
      exact .inl ⟨.init, rfl, by rw [hc, decode_table [] ho]; rfl, by rw [hl, delta_op1_init hp ho]⟩
    · have hneed : 0 < need op s.f[0] := Nat.pos_of_ne_zero fun h => hi ((need_eq_zero_iff _ _).1 h)
      refine .inr ⟨.payload, .payloadShort op, by simp, by simp, ?_, by rw [hl, delta_op1_payload hp ho hi],
        by rw [hl, hc]; rfl, ?_⟩
      · rw [hc, decode_table [] ho, ← decodePayload_short hneed, List.take_zero]
      · rw [hl]
        constructor <;> simp
        exact ⟨op, ho, hneed⟩

/-! #### PAYLOAD -/

/-- A further field byte, at the end of the fields already in. -/
theorem take_latchField {b : Byte} {s : State} (h : s.nf.val < 6) :
    (latchField b s).f.toList.take (s.nf.val + 1) = s.f.toList.take s.nf.val ++ [b] := by
  rw [latchField_f h, Vector.toList_set, List.take_add_one, List.take_set_of_le (Nat.le_refl _)]
  simp [h]

/-- The field byte that comes in does not make the command shorter than it. -/
theorem nf_lt_need_latchField {op : Opcode} {b : Byte} {s : State} (h : s.nf.val < need op s.f[0]) :
    s.nf.val < need op (latchField b s).f[0] := by
  have h6 : s.nf.val < 6 := h.trans_le (need_le_six op _)
  by_cases hc : op = .cut
  · rcases Nat.eq_zero_or_pos s.nf.val with h0 | h0
    · rw [h0]
      exact Nat.pos_of_ne_zero fun hz => by simpa [hc] using (need_eq_zero_iff op _).1 hz
    · rwa [latchField_f h6, Vector.getElem_set_ne (by omega) (by omega) (by omega)]
  · rwa [need_congr hc _ s.f[0]]

/-- The command's bytes after one more field byte, in `PAYLOAD` or with the header complete. -/
theorem commandBytes_latchField {b : Byte} {s : State} (hp : s.phase = .payload) (h : s.nf.val < 6) :
    commandBytes s ++ [b] = s.b0 :: s.b1 :: (latchField b s).f.toList.take (s.nf.val + 1) := by
  rw [take_latchField h]
  simp [commandBytes, hp]

theorem take_six (v : Vector Byte 6) : v.toList.take 6 = v.toList := List.take_of_length_le (by simp)

/-- The sixth header byte of `1D76`: an image of no bytes is complete, another one waits for its data. -/
theorem byte_header {b : Byte} {s : State} (hp : s.phase = .payload) (ho : opcode s = some .raster)
    (hn : s.nf.val = 5) : Retires b s ∨ Awaits b s := by
  have hl : latched b s = loadCounters (latchField b s) := by
    rw [latched_payload hp, if_pos ⟨by rw [opcode_latchField, ho], by rw [latchField_nf (by omega), hn]⟩]
  have hc : commandBytes s ++ [b] = s.b0 :: s.b1 :: ((latchField b s).f.toList ++ []) := by
    rw [commandBytes_latchField hp (by omega), hn, take_six, List.append_nil]
  have hdelta := delta_payload_raster (b := b) hp hn ho
  by_cases hz : rasterBytes (width (latchField b s)) (height (latchField b s)) = 0
  · exact .inl ⟨operands .raster [] (latchField b s), operands_wellFormed fun _ => hz.symm,
      by rw [hc, decode_table _ ho, decodePayload_raster_complete (data := []) hz.symm],
      by rw [hdelta, hl, startRaster_empty hz]⟩
  · refine .inr ⟨.rdata, .payloadShort .raster, by simp, by simp,
      by rw [hc, decode_table _ ho, decodePayload_raster_short (data := []) (Nat.pos_of_ne_zero hz)],
      by rw [hdelta, hl, startRaster_data hz], ?_, ?_⟩
    · rw [hl, hc]
      simp [commandBytes, Memory.readRange]
    · rw [hl]
      exact
        { op1First := fun h => nomatch h
          payloadFields := fun h => nomatch h
          rdataCounts := fun _ => ⟨(opcode_latchField b s).trans ho, (latchField_nf (by omega)).trans (by rw [hn]), by
            have hcnt := loadCounters_cnt_toNat (latchField b s)
            exact ⟨hcnt ▸ Nat.pos_of_ne_zero hz, (Nat.zero_add _).trans hcnt⟩⟩
          rdataWritten := fun _ => rfl }

theorem byte_payload {b : Byte} {s : State} (hs : LatchesOk s) (hp : s.phase = .payload) :
    Retires b s ∨ Awaits b s := by
  obtain ⟨op, ho, hn⟩ := hs.payloadFields hp
  have hn6 : s.nf.val < 6 := hn.trans_le (need_le_six op _)
  have hn' := nf_lt_need_latchField (b := b) hn
  have hnf := latchField_nf (b := b) hn6
  by_cases hlast : s.nf.val + 1 = need op (latchField b s).f[0]
  · by_cases hr : op = .raster
    · subst hr
      have h6 : need .raster (latchField b s).f[0] = 6 := rfl
      exact byte_header hp ho (by omega)
    · have hl : latched b s = latchField b s := by
        rw [latched_payload hp, if_neg fun h => hr (Option.some.inj ((opcode_latchField b s ▸ ho).symm.trans h.1))]
      exact .inl ⟨operands op [] (latchField b s), operands_wellFormed fun h => absurd h hr,
        by rw [commandBytes_latchField hp hn6, decode_table _ ho, hlast, decodePayload_complete hr],
        by rw [hl, delta_payload_last hp hn6 ho hr hlast]⟩
  · have hl : latched b s = latchField b s := by
      rw [latched_payload hp, if_neg]
      rintro ⟨hraster, h6⟩
      rw [opcode_latchField, ho] at hraster
      cases hraster
      exact hlast (by rw [← hnf, h6]; rfl)
    have hself : await .payload (latchField b s) = latchField b s := await_self (by rw [latchField_phase, hp])
    have hc := commandBytes_latchField (b := b) hp hn6
    refine .inr ⟨.payload, .payloadShort op, by simp, by simp,
      by rw [hc, decode_table _ ho, decodePayload_short (by omega)],
      by rw [hl, hself, delta_payload_more hp hn6 ho hlast], ?_, ?_⟩
    · rw [hl, hself, hc]
      simp [commandBytes, hp, hnf]
    · rw [hl]
      exact
        { op1First := fun h => nomatch h
          payloadFields := fun _ => ⟨op, (opcode_latchField b s).trans ho, by
            simp only [await_nf, await_f, hnf]
            omega⟩
          rdataCounts := fun h => nomatch h
          rdataWritten := fun h => nomatch h }

/-! #### RDATA -/

/-- In `RDATA` the index stands inside the raster buffer, which holds every legal image (20_memory.md R66). -/
theorem LatchesOk.idx_lt {s : State} (hs : LatchesOk s) (hp : s.phase = .rdata) : s.idx.toNat < Config.rbCapacity := by
  obtain ⟨-, -, hcnt, hsum⟩ := hs.rdataCounts hp
  have := rasterBytes_le (width s) (height s)
  rw [Config.rbCapacity]
  omega

theorem byte_rdata {b : Byte} {s : State} (hs : LatchesOk s) (hp : s.phase = .rdata) : Retires b s ∨ Awaits b s := by
  obtain ⟨ho, hn, hcnt, hsum⟩ := hs.rdataCounts hp
  obtain ⟨vs, hvs⟩ := Option.isSome_iff_exists.1 (hs.rdataWritten hp)
  have hi := hs.idx_lt hp
  have hl : latched b s = latchRaster b s := by simp [latched, hp]
  have hidx := latchRaster_idx_toNat (b := b) hi
  have hcnt' := latchRaster_cnt_toNat (b := b) hcnt
  have hlen : (vs ++ [b]).length = s.idx.toNat + 1 := by
    rw [List.length_append, (Memory.readRange_eq_some_iff.1 hvs).1]
    rfl
  have hrange : (latchRaster b s).rb.readRange 0 (s.idx.toNat + 1) = some (vs ++ [b]) :=
    Memory.readRange_write_end b hvs
  have hc : commandBytes s ++ [b] = s.b0 :: s.b1 :: ((latchRaster b s).f.toList ++ (vs ++ [b])) := by
    simp [commandBytes, hp, hvs]
  have hsize : rasterBytes (width (latchRaster b s)) (height (latchRaster b s)) = s.idx.toNat + s.cnt.toNat :=
    hsum.symm
  rcases hcnt.eq_or_lt with h1 | h1
  · have hdata : rasterData (latchRaster b s) = some (vs ++ [b]) := by rw [rasterData, hsize, ← h1, hrange]
    have hfull := rasterData_length hdata
    exact .inl ⟨operands .raster (vs ++ [b]) (latchRaster b s), operands_wellFormed fun _ => hfull,
      by rw [hc, decode_table _ ho, decodePayload_raster_complete hfull],
      by rw [hl, delta_rdata_last hp h1.symm hi hdata]⟩
  · have hself : await .rdata (latchRaster b s) = latchRaster b s := await_self hp
    refine .inr ⟨.rdata, .payloadShort .raster, by simp, by simp,
      by rw [hc, decode_table _ ho, decodePayload_raster_short (by omega)],
      by rw [hl, hself, delta_rdata_more hp h1 hi], ?_, ?_⟩
    · rw [hl, hself, hc]
      simp only [commandBytes, latchRaster_phase, hp, hidx, hrange]
      rfl
    · rw [hl, hself]
      exact
        { op1First := fun h => by simp [hp] at h
          payloadFields := fun h => by simp [hp] at h
          rdataCounts := fun _ => ⟨ho, hn, by omega, by omega⟩
          rdataWritten := fun _ => by rw [hidx, hrange]; rfl }

/-- From valid latches a byte completes the command that the decoder of byte strings reads, or is only stored. -/
theorem byte_retires_or_awaits (b : Byte) {s : State} (hs : LatchesOk s) (hh : s.phase ≠ .halt) :
    Retires b s ∨ Awaits b s := by
  cases hp : s.phase with
  | op0 => exact byte_op0 hp
  | op1 => exact byte_op1 hs hp
  | payload => exact byte_payload hs hp
  | rdata => exact byte_rdata hs hp
  | halt => exact absurd hp hh

end Sys2Proof.Machine
end

section
/-! ### Every step keeps the invariant of R38 -/

namespace Sys2Proof.Machine

/-! #### What handlers and byte steps leave in RB, EV and TX -/

/-- The clauses of `Inv` about the raster buffer and the output traces. -/
structure RecordsOk (s : State) : Prop where
  rbForm : s.rb.wf = true
  rbRange : ∀ c ∈ s.rb, c.1 < Config.rbCapacity
  events : ∀ e ∈ s.ev, eventOk e = true
  replies : s.tx = acks (s.ev.countP isStatusEvent)

theorem Inv.recordsOk {s : State} (hs : Inv s) : RecordsOk s := ⟨hs.rbForm, hs.rbRange, hs.events, hs.replies⟩

/-- A running decoder stands in one of the four phases in which a byte has an effect (10_state.md R31). -/
theorem Inv.phase_ne_halt {s : State} (hs : Inv s) (hr : s.halted = false) : s.phase ≠ .halt :=
  fun hp => by simpa [hr] using hs.haltPhase.2 hp

/-- The invariant of a running decoder whose request is not waiting. -/
theorem inv_of_running {s : State} (hw : s.wait = false) (hr : s.halted = false) (hh : s.phase ≠ .halt)
    (hl : LatchesOk s) (hrec : RecordsOk s) : Inv s where
  bufWait := fun _ => hw
  closedWait := fun _ => hw
  haltPhase := by simp [hr, hh]
  haltQueue := by simp [hr]
  op1First := hl.op1First
  payloadFields := hl.payloadFields
  rdataCounts := hl.rdataCounts
  rdataWritten := hl.rdataWritten
  rbForm := hrec.rbForm
  rbRange := hrec.rbRange
  events := hrec.events
  replies := hrec.replies

/-- Settles O2: at reset nothing waits, no latch is valid, and RB, EV and TX are empty. -/
theorem resetMeetsTheInvariant : Obligations.ResetMeetsTheInvariant :=
  inv_of_running rfl rfl (by simp [State.reset]) (LatchesOk.of_op0 rfl)
    ⟨rfl, by simp [State.reset], by simp [State.reset], rfl⟩

/-- The event of a well-formed command meets the field conditions of R13. -/
theorem eventOk_of_wellFormed {i : Instr} (hi : i.wellFormed = true) : ∀ e ∈ eventsOf i, eventOk e = true := by
  cases i with
  | idle | skip2 | unk => simp [eventsOf]
  | buzz | init | feed | reverse | codepage | units => simp [eventsOf, eventOk]
  | pmode | charset | status => simp [eventsOf, eventOk, printModeOf, statusEnableOf]
  | cut | cutf | raster => simpa [eventsOf, eventOk, Instr.wellFormed] using hi

/-- A command replies with one acknowledgement for each status event it emits. -/
theorem replyOf_eq_acks (i : Instr) : replyOf i = acks ((eventsOf i).countP isStatusEvent) := by
  cases i <;> rfl

theorem acks_add (m n : Nat) : acks (m + n) = acks m ++ acks n := by
  rw [acks, List.replicate_add, List.flatten_append]
  rfl

theorem recordsOk_of_exec {i : Instr} {s t : State} (hs : RecordsOk s) (hi : i.wellFormed = true)
    (h : exec i s = .next t) : RecordsOk t := by
  rw [eq_of_exec h]
  refine ⟨hs.rbForm, hs.rbRange, fun e he => ?_, ?_⟩
  · rcases List.mem_append.1 he with he | he
    · exact hs.events e he
    · exact eventOk_of_wellFormed hi e he
  · rw [List.countP_append, acks_add, ← hs.replies, replyOf_eq_acks]

/-- Storing a byte writes the raster buffer in `RDATA` only. -/
theorem latched_rb (b : Byte) (s : State) :
    (latched b s).rb = if s.phase = .rdata then s.rb.write s.idx.toNat b else s.rb := by
  cases hp : s.phase with
  | payload => rw [latched_payload hp]; split <;> simp
  | op0 => simp only [latched, hp]; split <;> simp
  | op1 | rdata | halt => simp [latched, hp]

theorem recordsOk_latched (b : Byte) {s : State} (hs : RecordsOk s) (hl : LatchesOk s) :
    RecordsOk (latched b s) := by
  refine ⟨?_, ?_, by simpa using hs.events, by simpa using hs.replies⟩ <;> rw [latched_rb] <;> split
  · exact Memory.write_wf _ _ hs.rbForm
  · exact hs.rbForm
  · rename_i hp
    intro c hc
    rcases Memory.mem_write hc with rfl | hc
    · exact hl.idx_lt hp
    · exact hs.rbRange c hc
  · exact hs.rbRange

/-! #### Byte steps, decoder steps and the producer's moves -/

theorem inv_of_delta {b : Byte} {s t : State} (hs : Inv s) (hr : s.halted = false) (hw : s.wait = false)
    (h : delta b s = .next t) : Inv t := by
  have hh := hs.phase_ne_halt hr
  have hrec := recordsOk_latched b hs.recordsOk hs.latchesOk
  obtain ⟨-, -, -, hhalted, -, hwait⟩ := delta_frame h
  rcases byte_retires_or_awaits b hs.latchesOk hh with ⟨i, hi, -, hd⟩ | ⟨p, -, -, hp, -, hd, -, hl⟩
  · rw [hd] at h
    have hop0 : t.phase = .op0 := by rw [eq_of_exec h]
    exact inv_of_running (hwait.trans hw) (hhalted.trans hr) (by simp [hop0]) (LatchesOk.of_op0 hop0)
      (recordsOk_of_exec hrec hi h)
  · rw [hd] at h
    cases h
    exact inv_of_running (hwait.trans hw) (hhalted.trans hr) hp hl
      ⟨hrec.rbForm, hrec.rbRange, hrec.events, hrec.replies⟩

/-- A running decoder takes its byte with the invariant kept: a request waits on an empty queue only. -/
theorem inv_consume {s : State} {b : Byte} {rest : List Byte} (hs : Inv s) (hr : s.halted = false)
    (hb : s.buf = b :: rest) : Inv (consume s) ∧ (consume s).wait = false := by
  have hw : s.wait = false := hs.bufWait (by simp [hb])
  have hh := hs.phase_ne_halt hr
  exact ⟨inv_of_running hw hr hh ⟨hs.op1First, hs.payloadFields, hs.rdataCounts, hs.rdataWritten⟩
    ⟨hs.rbForm, hs.rbRange, hs.events, hs.replies⟩, hw⟩

theorem inv_of_decoderStep {s t : State} (hs : Inv s) (h : decoderStep s = .next t) : Inv t := by
  rcases decoderStep_cases s with ⟨_, he⟩ | ⟨hr, b, rest, hb, he⟩ | ⟨_, hb, hc, he⟩ | ⟨_, hb, hc, he⟩
  · rw [he] at h; cases h; exact hs
  · rw [he] at h
    obtain ⟨hs', hw⟩ := inv_consume hs hr hb
    exact inv_of_delta hs' hr hw h
  · rw [he] at h; cases h
    exact { hs with
      haltPhase := by simp
      haltQueue := fun _ => ⟨hc, hb⟩
      op1First := fun h => nomatch h
      payloadFields := fun h => nomatch h
      rdataCounts := fun h => nomatch h
      rdataWritten := fun h => nomatch h }
  · rw [he] at h; cases h
    exact { hs with bufWait := fun h => absurd hb h, closedWait := fun h => by simp [hc] at h }

/-- On an open stream a producer's move appends or closes and resolves the request; after `close` it does nothing. -/
theorem inv_produce (m : Move) {s : State} (hs : Inv s) : Inv (produce m s) := by
  cases hc : s.closed with
  | true => rwa [produce_of_closed m hc]
  | false =>
    cases m with
    | push | close =>
      simp only [produce, push, close, hc, Bool.false_eq_true, if_false]
      exact { hs with
        bufWait := fun _ => rfl
        closedWait := fun _ => rfl
        haltQueue := fun hh => absurd (hs.haltQueue hh).1 (by simp [hc]) }
    | decode => exact hs

/-- No clause of the invariant speaks of the turns to come. -/
theorem Inv.withTurns {s : State} (hs : Inv s) (ms : List Move) : Inv { s with turns := ms } := { hs with }

/-- Settles O3: the producer's moves and the decoder's step each keep the invariant. -/
theorem everyStepKeepsTheInvariant : Obligations.EveryStepKeepsTheInvariant := by
  intro s t hs h
  rcases step_cases h with ⟨b, rest, -, rfl⟩ | ⟨rest, -, rfl⟩ | ⟨-, hd⟩
  · exact inv_produce (.push b) (hs.withTurns rest)
  · exact inv_produce .close (hs.withTurns rest)
  · exact inv_of_decoderStep (hs.withTurns _) hd

end Sys2Proof.Machine
end

section
/-! ### Stale latches never matter (10_state.md R42)

A running state that meets the invariant does with its next byte what the decoder of byte strings makes of the bytes
of its command (`byte_retires_or_awaits`), so two states with the same such bytes step alike, whatever their stale
latches hold. -/

namespace Sys2Proof.Machine

/-! #### The phase is read off the bytes of the current command -/

/-- The phase in which a running decoder stands after these bytes of an incomplete command. -/
def phaseAfter (bs : List Byte) : Phase :=
  match bs with
  | [] => .op0
  | [_] => .op1
  | b0 :: b1 :: fields => if lookup b0 b1 = some .raster ∧ 6 ≤ fields.length then .rdata else .payload

theorem phaseAfter_commandBytes {s : State} (hs : LatchesOk s) (hh : s.phase ≠ .halt) :
    phaseAfter (commandBytes s) = s.phase := by
  cases hp : s.phase with
  | op0 => simp [commandBytes, hp, phaseAfter]
  | op1 => simp [commandBytes, hp, phaseAfter]
  | payload =>
    obtain ⟨op, ho, hn⟩ := hs.payloadFields hp
    simp only [commandBytes, hp, phaseAfter]
    refine if_neg ?_
    rintro ⟨hr, hlen⟩
    cases (show opcode s = some .raster from hr).symm.trans ho
    have h6 : need .raster s.f[0] = 6 := rfl
    rw [List.length_take] at hlen
    omega
  | rdata =>
    obtain ⟨ho, -⟩ := hs.rdataCounts hp
    simp only [commandBytes, hp, phaseAfter, List.cons_append]
    exact if_pos ⟨ho, by simp⟩
  | halt => exact absurd hp hh

/-! #### What `withoutLatches` and `commandBytes` see of each operation -/

theorem withoutLatches_latched (b : Byte) (s : State) : withoutLatches (latched b s) = withoutLatches s := by
  simp [withoutLatches]

theorem withoutLatches_await (p : Phase) (s : State) :
    withoutLatches (await p s) = { withoutLatches s with phase := p } := rfl

theorem withoutLatches_consume (s : State) : withoutLatches (consume s) = consume (withoutLatches s) := rfl

theorem withoutLatches_produce (m : Move) (s : State) :
    withoutLatches (produce m s) = produce m (withoutLatches s) := by
  cases hc : s.closed with
  | true => rw [produce_of_closed m hc, produce_of_closed m (s := withoutLatches s) hc]
  | false => cases m <;> simp [produce, push, close, withoutLatches, hc]

theorem commandBytes_produce (m : Move) (s : State) : commandBytes (produce m s) = commandBytes s := by
  cases m <;> simp [produce, commandBytes]

/-! #### Operations on two states that agree -/

/-- States that agree outside the latches agree in everything that is not read from a latch. -/
theorem sameButStaleLatches.eq_of {α : Type} {s t : State} (h : sameButStaleLatches s t) (g : State → α)
    (hg : ∀ u, g (withoutLatches u) = g u) : g s = g t := by
  rw [← hg s, h.1, hg t]

theorem sameButStaleLatches.map {s t : State} (h : sameButStaleLatches s t) (g : State → State)
    (hg : ∀ u, withoutLatches (g u) = g (withoutLatches u)) (hc : ∀ u, commandBytes (g u) = commandBytes u) :
    sameButStaleLatches (g s) (g t) :=
  ⟨by rw [hg, hg, h.1], by rw [hc, hc, h.2]⟩

/-- The same handler on states that agree outside the latches. -/
theorem exec_sameButStaleLatches (i : Instr) {s t : State} (h : withoutLatches s = withoutLatches t) :
    ∃ s' t', exec i s = .next s' ∧ exec i t = .next t' ∧ sameButStaleLatches s' t' := by
  refine ⟨_, _, exec_eq i s, exec_eq i t, ?_, rfl⟩
  exact congrArg (fun u => { u with
    phase := .op0, ev := u.ev ++ eventsOf i, tx := u.tx ++ replyOf i, unkSeen := u.unkSeen || isUnknown i }) h

/-- Valid latches that hold the same command bytes do the same with the next byte. -/
theorem delta_sameButStaleLatches (b : Byte) {s t : State} (hs : LatchesOk s) (ht : LatchesOk t)
    (hh : s.phase ≠ .halt) (h : sameButStaleLatches s t) :
    ∃ s' t', delta b s = .next s' ∧ delta b t = .next t' ∧ sameButStaleLatches s' t' := by
  have hphase : s.phase = t.phase := h.eq_of State.phase fun _ => rfl
  obtain ⟨hw, hc⟩ := h
  have hlatched : withoutLatches (latched b s) = withoutLatches (latched b t) := by
    rw [withoutLatches_latched, withoutLatches_latched, hw]
  rcases byte_retires_or_awaits b hs hh with ⟨i, -, hi, hd⟩ | ⟨p, e, -, hp, he, hd, hcb, hl⟩ <;>
    rcases byte_retires_or_awaits b ht (hphase ▸ hh) with
      ⟨j, -, hj, hd'⟩ | ⟨q, e', -, hq, he', hd', hcb', hl'⟩
  · rw [hc, hj] at hi
    cases hi
    rw [hd, hd']
    exact exec_sameButStaleLatches i hlatched
  · rw [hc, he'] at hi
    cases hi
  · rw [hc, hj] at he
    cases he
  · have hbytes := hcb.trans ((congrArg (· ++ [b]) hc).trans hcb'.symm)
    have hpq : p = q := by
      have h1 := phaseAfter_commandBytes hl hp
      have h2 := phaseAfter_commandBytes hl' hq
      rw [hbytes] at h1
      exact h1.symm.trans h2
    subst hpq
    exact ⟨_, _, hd, hd', by rw [withoutLatches_await, withoutLatches_await, hlatched], hbytes⟩

theorem decoderStep_sameButStaleLatches {s t : State} (hs : Inv s) (ht : Inv t) (h : sameButStaleLatches s t) :
    ∃ s' t', decoderStep s = .next s' ∧ decoderStep t = .next t' ∧ sameButStaleLatches s' t' := by
  have hbuf : s.buf = t.buf := h.eq_of State.buf fun _ => rfl
  have hclosed : s.closed = t.closed := h.eq_of State.closed fun _ => rfl
  have hhalted : s.halted = t.halted := h.eq_of State.halted fun _ => rfl
  rcases decoderStep_cases s with ⟨hr, he⟩ | ⟨hr, b, rest, hb, he⟩ | ⟨hr, hb, hc, he⟩ | ⟨hr, hb, hc, he⟩
  · exact ⟨_, _, he, decoderStep_halted (hhalted ▸ hr), h⟩
  · rw [he, decoderStep_byte (hhalted ▸ hr) (hbuf ▸ hb)]
    have hh := hs.phase_ne_halt hr
    exact delta_sameButStaleLatches b (inv_consume hs hr hb).1.latchesOk
      (inv_consume ht (hhalted ▸ hr) (hbuf ▸ hb)).1.latchesOk hh (h.map consume withoutLatches_consume fun _ => rfl)
  · exact ⟨_, _, he, decoderStep_eos (hhalted ▸ hr) (hbuf ▸ hb) (hclosed ▸ hc),
      congrArg (fun u => { u with halted := true, phase := .halt }) h.1, rfl⟩
  · exact ⟨_, _, he, decoderStep_starved (hhalted ▸ hr) (hbuf ▸ hb) (hclosed ▸ hc),
      h.map (fun u => { u with wait := true }) (fun _ => rfl) fun _ => rfl⟩

/-- Settles O14: both states have the same turn; a producer's move does not look at the latches, and a decoder step
only at the bytes of the current command. -/
theorem staleLatchesNeverMatter : Obligations.StaleLatchesNeverMatter := by
  intro s t hs ht h
  have hturns : s.turns = t.turns := h.eq_of State.turns fun _ => rfl
  rw [step_eq_move s, step_eq_move t, ← hturns]
  have h' := h.map (fun u => { u with turns := s.turns.tail }) (fun _ => rfl) fun _ => rfl
  by_cases hm : s.turns.headD .decode = .decode
  · rw [hm]
    exact decoderStep_sameButStaleLatches (hs.withTurns _) (ht.withTurns _) h'
  · exact ⟨_, _, move_eq_produce hm _, move_eq_produce hm _,
      h'.map (produce _) (withoutLatches_produce _) (commandBytes_produce _)⟩

end Sys2Proof.Machine
end

section
/-! ### The byte queue, move by move (20_memory.md R54 to R63) -/

namespace Sys2Proof.Machine

/-! #### The operations on the queue, case by case -/

theorem consume_eq {s : State} {b : Byte} {rest : List Byte} (h : s.buf = b :: rest) :
    consume s = { s with buf := rest, pos := s.pos + 1 } := by
  simp [consume, h]

theorem nextByte_eos {s : State} (h : s.buf = []) (hc : s.closed = true) : nextByte s = .eos := by
  simp [nextByte, h, hc]

theorem nextByte_suspend {s : State} (h : s.buf = []) (hc : s.closed = false) : nextByte s = .suspend := by
  simp [nextByte, h, hc]

theorem push_of_open (b : Byte) {s : State} (h : s.closed = false) :
    push b s = { s with buf := s.buf ++ [b], wait := false } := by
  simp [push, h]

theorem push_of_closed (b : Byte) {s : State} (h : s.closed = true) : push b s = s :=
  produce_of_closed (.push b) h

theorem close_of_open {s : State} (h : s.closed = false) : close s = { s with closed := true, wait := false } := by
  simp [close, h]

theorem close_of_closed {s : State} (h : s.closed = true) : close s = s :=
  produce_of_closed .close h

theorem starved_iff (s : State) : starved s = true ↔ s.halted = false ∧ s.buf = [] ∧ s.closed = false := by
  simp [starved, and_assoc]

/-- A request waits only on an empty queue of an open stream (10_state.md R38(a), 20_memory.md R53). -/
theorem Inv.queue_of_wait {s : State} (hs : Inv s) (hw : s.wait = true) : s.buf = [] ∧ s.closed = false := by
  constructor
  · by_contra hb
    simp [hs.bufWait hb] at hw
  · by_contra hc
    simp [hs.closedWait (by simpa using hc)] at hw

/-! #### One read, one push, one close, and a starved decoder -/

/-- Settles O27: the three cases of the queue and `CLOSED`; a suspended request makes the decoder's step set `WAIT`. -/
theorem nextByteYieldsTheOldestByte : Obligations.NextByteYieldsTheOldestByte := by
  intro s
  refine ⟨fun b rest hb => ?_, nextByte_eos, fun hb hc => ⟨nextByte_suspend hb hc, fun hr => ?_⟩⟩
  · rw [nextByte_byte hb, consume_eq hb]
  · exact decoderStep_starved hr hb hc

/-- Settles O28: the push on an open and on a closed stream; with no request waiting, `WAIT` is 0 before and after. -/
theorem pushAppendsWhileTheStreamIsOpen : Obligations.PushAppendsWhileTheStreamIsOpen := by
  intro s b rest hturn
  rw [step_push hturn]
  refine ⟨fun hc hw => ?_, fun hc => ?_⟩
  · rw [push_of_open b (s := { s with turns := rest }) hc, ← hw]
  · rw [push_of_closed b (s := { s with turns := rest }) hc]

/-- Settles O29: under the invariant a request waits on an empty open queue, so the pushed byte stands alone in it. -/
theorem pushResolvesTheWaitingRequest : Obligations.PushResolvesTheWaitingRequest := by
  intro s b rest hs hturn hw
  obtain ⟨hb, hc⟩ := hs.queue_of_wait hw
  refine ⟨?_, nextByte_byte rfl⟩
  rw [step_push hturn, push_of_open b (s := { s with turns := rest }) hc, hb, List.nil_append]

/-- Settles O30: the close of an open and of a closed stream; under the invariant the queue of a waiting request is
empty, so what it yields is `EOS`. -/
theorem closeKeepsTheBufferedBytes : Obligations.CloseKeepsTheBufferedBytes := by
  intro s rest hturn
  rw [step_close hturn]
  refine ⟨fun hc => ?_, fun hc => ?_, fun hs hw => nextByte_eos (hs.queue_of_wait hw).1 rfl⟩
  · rw [close_of_open (s := { s with turns := rest }) hc]
  · rw [close_of_closed (s := { s with turns := rest }) hc]

/-- Settles O31: the first step sets `WAIT`, and the state it answers is one that a further step leaves as it is. -/
theorem starvedDecoderOnlyWaits : Obligations.StarvedDecoderOnlyWaits := by
  intro n s hs hturns
  obtain ⟨hr, hb, hc⟩ := (starved_iff s).1 hs
  rw [steps_succ, step_of_no_turns hturns, decoderStep_starved hr hb hc, andThen_next]
  exact steps_of_rest (s := { s with wait := true }) hturns (decoderStep_starved hr hb hc) n

/-! #### Any number of moves: first in, first out -/

theorem eq_next_of_andThen {r : Result} {g : State → Result} {t : State} (h : andThen r g = .next t) :
    ∃ u, r = .next u ∧ g u = .next t := by
  cases r with
  | next u => exact ⟨u, rfl, h⟩
  | fault _ => cases h
  | refused _ => cases h

/-- A move takes bytes off the head of the queue, counted in `POS`, and adds accepted bytes at its end: the bytes taken,
those in the queue and those still to be accepted are the same sequence before and after it. -/
theorem move_queue {m : Move} {s t : State} (h : move m s = .next t) :
    t.turns = s.turns ∧ ∃ taken, t.pos = s.pos + taken.length ∧
      ∀ ms, s.buf ++ acceptedBytes s.closed (m :: ms) = taken ++ (t.buf ++ acceptedBytes t.closed ms) := by
  cases m with
  | push b =>
    cases h
    refine ⟨push_turns b s, [], push_pos b s, fun ms => ?_⟩
    cases hc : s.closed <;> simp [acceptedBytes, hc]
  | close =>
    cases h
    exact ⟨close_turns s, [], close_pos s, fun ms => by simp [acceptedBytes]⟩
  | decode =>
    obtain ⟨hturns, hclosed, ⟨hbuf, hpos⟩ | ⟨-, hpos, b, hbuf⟩, -⟩ := decoderStep_queue h
    · exact ⟨hturns, [], hpos, fun ms => by simp [acceptedBytes, hbuf, hclosed]⟩
    · exact ⟨hturns, [b], hpos, fun ms => by simp [acceptedBytes, hbuf, hclosed]⟩

/-- After a list of moves the bytes taken, followed by those left in the queue, are the old queue followed by the
accepted bytes. -/
theorem steps_queue {ms : List Move} {s t : State} (hturns : s.turns = ms) (h : steps ms.length s = .next t) :
    ∃ taken, t.pos = s.pos + taken.length ∧ s.buf ++ acceptedBytes s.closed ms = taken ++ t.buf := by
  induction ms generalizing s with
  | nil =>
    cases h
    exact ⟨[], rfl, List.append_nil _⟩
  | cons m ms ih =>
    rw [List.length_cons, steps_succ] at h
    obtain ⟨u, hu, hrun⟩ := eq_next_of_andThen h
    rw [step_eq_move, hturns] at hu
    obtain ⟨huturns, first, hupos, hfirst⟩ := move_queue hu
    obtain ⟨later, hpos, hlater⟩ := ih huturns hrun
    refine ⟨first ++ later, by rw [hpos, hupos, List.length_append, Nat.add_assoc], ?_⟩
    calc s.buf ++ acceptedBytes s.closed (m :: ms)
        = first ++ (u.buf ++ acceptedBytes u.closed ms) := hfirst ms
      _ = first ++ later ++ t.buf := by rw [hlater, List.append_assoc]

/-- Settles O20: the bytes that the moves take off the queue are its first `POS' - POS` ones (`steps_queue`). -/
theorem queueIsFirstInFirstOut : Obligations.QueueIsFirstInFirstOut := by
  intro ms s t hturns h
  obtain ⟨taken, hpos, hbytes⟩ := steps_queue hturns h
  rw [hbytes, hpos, Nat.add_sub_cancel_left, List.length_append]
  exact ⟨Nat.le_add_right .., List.drop_left.symm, Nat.add_assoc ..⟩

end Sys2Proof.Machine
end

section
/-! ### What a step appends to EV and TX, and the command it completes (20_memory.md R64, R71 to R74) -/

namespace Sys2Proof.Machine

/-- A command emits nothing and writes nothing, or it emits one event and replies to a status event only. -/
theorem eventsOf_nil_or_singleton (i : Instr) :
    (eventsOf i = [] ∧ replyOf i = []) ∨
    ∃ e, eventsOf i = [e] ∧ replyOf i = if isStatusEvent e then [0x14, 0x00, 0x00, 0x00, 0xFF] else [] := by
  cases i with
  | idle | skip2 | unk => exact .inl ⟨rfl, rfl⟩
  | buzz | pmode | init | feed | charset | reverse | codepage | units | cut | cutf | status | raster =>
    exact .inr ⟨_, rfl, rfl⟩

/-- A decoder step leaves EV and TX as they are, or appends what a command emits and writes. -/
theorem decoderStep_outputs {s t : State} (h : decoderStep s = .next t) :
    (t.ev = s.ev ∧ t.tx = s.tx) ∨ ∃ i, t.ev = s.ev ++ eventsOf i ∧ t.tx = s.tx ++ replyOf i := by
  rcases decoderStep_cases s with ⟨_, he⟩ | ⟨_, b, rest, _, he⟩ | ⟨_, _, _, he⟩ | ⟨_, _, _, he⟩ <;> rw [he] at h
  · cases h; exact .inl ⟨rfl, rfl⟩
  · rcases delta_outputs h with ⟨hev, htx, _⟩ | ⟨i, _, hev, htx, _⟩
    · exact .inl ⟨hev, htx⟩
    · exact .inr ⟨i, hev, htx⟩
  · cases h; exact .inl ⟨rfl, rfl⟩
  · cases h; exact .inl ⟨rfl, rfl⟩

/-- Settles O22: the producer leaves both traces alone, and a decoder step appends the outputs of at most one command. -/
theorem outputsGrowByOneEventAndItsReply : Obligations.OutputsGrowByOneEventAndItsReply := by
  intro s t h
  rcases step_cases h with ⟨b, rest, _, rfl⟩ | ⟨rest, _, rfl⟩ | ⟨_, hd⟩
  · exact .inl ⟨push_ev .., push_tx ..⟩
  · exact .inl ⟨close_ev _, close_tx _⟩
  · rcases decoderStep_outputs hd with hsame | ⟨i, hev, htx⟩
    · exact .inl hsame
    · rcases eventsOf_nil_or_singleton i with ⟨hnone, hnoreply⟩ | ⟨e, hone, hreply⟩
      · rw [hnone, List.append_nil] at hev
        rw [hnoreply, List.append_nil] at htx
        exact .inl ⟨hev, htx⟩
      · exact .inr ⟨e, hone ▸ hev, hreply ▸ htx⟩

/-- Settles O9: the byte retires a command or only awaits more (`byte_retires_or_awaits`), and `decode` tells which. -/
theorem stepRunsTheDecodedCommand : Obligations.StepRunsTheDecodedCommand := by
  intro s b rest i hs hturns hr hb hdecode
  rw [step_of_no_turns hturns, decoderStep_byte hr hb]
  have hlatches := (inv_consume hs hr hb).1.latchesOk
  have hbytes : commandBytes (consume s) = commandBytes s := rfl
  rcases byte_retires_or_awaits b hlatches (hs.phase_ne_halt hr) with ⟨j, -, hj, hdelta⟩ | ⟨_, e, -, -, he, -⟩
  · rw [hbytes, hdecode] at hj
    cases hj
    exact hdelta
  · rw [hbytes, hdecode] at he
    cases he

end Sys2Proof.Machine
end

section
/-! ### The decoder and the encoder of byte strings are inverse (30_encoding.md R91 to R101) -/

namespace Sys2Proof

open Sys2Proof.Machine

/-! #### The opcode table -/

/-- Settles O46: the lookup compares the first byte and then the second, one row of the table for each branch. -/
theorem lookupIsTheTableOfElevenPairs : Obligations.LookupIsTheTableOfElevenPairs := by
  intro b0 b1 op
  constructor
  · intro h
    unfold lookup at h
    split_ifs at h <;> cases h <;> subst_vars <;> decide
  · intro h
    fin_cases h <;> rfl

/-- Settles O8: the decoder runs on each of the nine written-out strings. -/
theorem writtenOutWordsDecode : Obligations.WrittenOutWordsDecode := by
  refine ⟨?_, ?_, ?_, ?_, ?_, ?_, ?_, ?_, ?_⟩ <;> decide

/-! #### Decoding what was encoded -/

/-- Settles O5: the opcode bytes select the payload's layout, and its fields are read back in the order in which they
were written; a 16-bit field is the assembly of its two bytes. -/
theorem encodedCommandDecodesToItself : Obligations.EncodedCommandDecodesToItself := by
  intro i rest hi
  cases i with
  | idle | buzz | pmode | init | feed | charset | reverse | skip2 | codepage | units | status => rfl
  | cut m =>
    have hm : isShortCut m = true := hi
    exact if_pos hm
  | cutf m n =>
    have hm : ¬ isShortCut m = true := by simpa [Instr.wellFormed] using hi
    exact if_neg hm
  | raster k mode w h data =>
    have hlen : data.length = rasterBytes w h := by simpa [Instr.wellFormed] using hi
    rw [encode, List.append_assoc]
    refine (decode_table _ (op := .raster) rfl).trans ?_
    simp [decodePayload, u16_low_high, ← hlen]
  | unk b0 b1 =>
    obtain ⟨hs, hl⟩ : isSingleByte b0 = false ∧ lookup b0 b1 = none := by simpa [Instr.wellFormed] using hi
    exact decode_unknown rest hs hl

/-! #### Encoding what was decoded -/

/-- What a decoded string is: a single-byte command, an unknown pair, or a table opcode with its payload. -/
theorem decode_cases {bs rest : List Byte} {i : Instr} (h : decode bs = .ok (i, rest)) :
    (bs = 0x00 :: rest ∧ i = .idle) ∨ (bs = 0x1E :: rest ∧ i = .buzz) ∨
    (∃ b0 b1, bs = b0 :: b1 :: rest ∧ i = .unk b0 b1 ∧ isSingleByte b0 = false ∧ lookup b0 b1 = none) ∨
    ∃ b0 b1 op r, bs = b0 :: b1 :: r ∧ lookup b0 b1 = some op ∧ decodePayload op r = .ok (i, rest) := by
  unfold decode at h
  split at h
  · cases h
  · rename_i b0 r
    split at h
    · cases h; exact .inl ⟨by simp_all, rfl⟩
    · split at h
      · cases h; exact .inr (.inl ⟨by simp_all, rfl⟩)
      · rename_i h0 h1
        split at h
        · cases h
        · rename_i b1 r'
          split at h
          · cases h
            exact .inr (.inr (.inl ⟨b0, b1, rfl, rfl, not_isSingleByte h0 h1, ‹_›⟩))
          · exact .inr (.inr (.inr ⟨b0, b1, _, r', rfl, ‹_›, h⟩))

/-- The two bytes of a table opcode (R100). -/
def opcodeBytes (op : Opcode) : Byte × Byte :=
  match op with
  | .pmode => (0x1B, 0x21)
  | .init => (0x1B, 0x40)
  | .feed => (0x1B, 0x4A)
  | .charset => (0x1B, 0x52)
  | .reverse => (0x1D, 0x42)
  | .skip2 => (0x1B, 0x63)
  | .codepage => (0x1B, 0x74)
  | .units => (0x1D, 0x50)
  | .cut => (0x1D, 0x56)
  | .status => (0x1D, 0x61)
  | .raster => (0x1D, 0x76)

theorem bytes_of_lookup {b0 b1 : Byte} {op : Opcode} (h : lookup b0 b1 = some op) :
    b0 = (opcodeBytes op).1 ∧ b1 = (opcodeBytes op).2 := by
  have hrow := (lookupIsTheTableOfElevenPairs b0 b1 op).1 h
  fin_cases hrow <;> exact ⟨rfl, rfl⟩

/-- A payload read is that of a well-formed command, and its encoding is the opcode and the bytes read. -/
theorem encode_of_decodePayload {op : Opcode} {bs rest : List Byte} {i : Instr}
    (h : decodePayload op bs = .ok (i, rest)) :
    i.wellFormed = true ∧ encode i ++ rest = (opcodeBytes op).1 :: (opcodeBytes op).2 :: bs := by
  cases op with
  | init => cases h; exact ⟨rfl, rfl⟩
  | pmode | feed | charset | reverse | codepage | status =>
    rcases bs with _ | ⟨n, r⟩ <;> cases h
    exact ⟨rfl, rfl⟩
  | skip2 | units =>
    rcases bs with _ | ⟨x, _ | ⟨y, r⟩⟩ <;> cases h
    exact ⟨rfl, rfl⟩
  | cut =>
    rcases bs with _ | ⟨m, r⟩
    · cases h
    · simp only [decodePayload] at h
      split at h
      · rename_i hm
        cases h
        exact ⟨hm, rfl⟩
      · rename_i hm
        rcases r with _ | ⟨n, r⟩ <;> cases h
        exact ⟨by simpa [Instr.wellFormed] using hm, rfl⟩
  | raster =>
    rcases bs with _ | ⟨k, _ | ⟨mode, _ | ⟨wl, _ | ⟨wh, _ | ⟨hl, _ | ⟨hh, r⟩⟩⟩⟩⟩⟩
    case cons.cons.cons.cons.cons.cons =>
      simp only [decodePayload] at h
      split at h
      · cases h
      · rename_i hlen
        cases h
        refine ⟨by simpa [Instr.wellFormed] using Nat.not_lt.1 hlen, ?_⟩
        simp [encode, opcodeBytes, lowByte_u16, highByte_u16]
    all_goals cases h

/-- Settles O6: what a decoded string is (`decode_cases`), and for a table opcode what its payload is. -/
theorem decodedBytesEncodeBack : Obligations.DecodedBytesEncodeBack := by
  intro bs rest i h
  rcases decode_cases h with ⟨rfl, rfl⟩ | ⟨rfl, rfl⟩ | ⟨b0, b1, rfl, rfl, hs, hl⟩ | ⟨b0, b1, op, r, rfl, hl, hp⟩
  · exact ⟨rfl, rfl⟩
  · exact ⟨rfl, rfl⟩
  · exact ⟨by simp [Instr.wellFormed, hs, hl], rfl⟩
  · obtain ⟨rfl, rfl⟩ := bytes_of_lookup hl
    exact encode_of_decodePayload hp

/-! #### Every string begins a command -/

/-- A payload as long as the longest one of its opcode is complete. -/
theorem decodePayload_of_long (op : Opcode) {bs : List Byte} (h : 6 + Config.rbCapacity ≤ bs.length) :
    ∃ i rest, decodePayload op bs = .ok (i, rest) := by
  rcases bs with _ | ⟨k, _ | ⟨mode, _ | ⟨wl, _ | ⟨wh, _ | ⟨hl, _ | ⟨hh, r⟩⟩⟩⟩⟩⟩
  case cons.cons.cons.cons.cons.cons =>
    cases op with
    | raster =>
      have hle : rasterBytes (u16 wl wh) (u16 hl hh) ≤ r.length := by
        have := rasterBytes_le (u16 wl wh) (u16 hl hh)
        simp only [Config.rbCapacity, List.length_cons] at h
        omega
      exact ⟨_, _, if_neg (Nat.not_lt.2 hle)⟩
    | cut => cases hm : isShortCut k <;> simp [decodePayload, hm]
    | init | pmode | feed | charset | reverse | codepage | status | skip2 | units => exact ⟨_, _, rfl⟩
  all_goals
    simp only [Config.rbCapacity, List.length_cons, List.length_nil] at h
    omega

/-- A string as long as the longest command begins with a complete one. -/
theorem decode_of_long {bs : List Byte} (h : 8 + Config.rbCapacity ≤ bs.length) :
    ∃ i rest, decode bs = .ok (i, rest) := by
  rcases bs with _ | ⟨b0, _ | ⟨b1, r⟩⟩
  · simp [Config.rbCapacity] at h
  · simp [Config.rbCapacity] at h
  · cases hs : isSingleByte b0 with
    | true => rcases (isSingleByte_iff b0).1 hs with rfl | rfl <;> exact ⟨_, _, rfl⟩
    | false =>
      cases hl : lookup b0 b1 with
      | none => exact ⟨_, _, decode_unknown r hs hl⟩
      | some op =>
        rw [decode_table r hl]
        exact decodePayload_of_long op (by simp only [List.length_cons] at h; omega)

/-- A command that begins a longer string, but not the shorter one, is completed by bytes that follow the shorter one. -/
theorem encode_eq_append_of_decode {bs more rest : List Byte} {i : Instr} {e : DecodeReject}
    (he : decode bs = .error e) (h : decode (bs ++ more) = .ok (i, rest)) : ∃ ext, encode i = bs ++ ext := by
  obtain ⟨hi, hbytes⟩ := decodedBytesEncodeBack _ _ _ h
  rcases List.append_eq_append_iff.1 hbytes with ⟨as, hbs, -⟩ | ⟨ext, henc, -⟩
  · rw [hbs, encodedCommandDecodesToItself i as hi] at he
    cases he
  · exact ⟨ext, henc⟩

/-- Settles O7: a string followed by sufficiently many bytes begins with a command, and that command's encoding is the
string followed by some of them. -/
theorem everyByteStringBeginsACommand : Obligations.EveryByteStringBeginsACommand := by
  intro bs e he
  obtain ⟨i, rest, h⟩ := decode_of_long (bs := bs ++ List.replicate (8 + Config.rbCapacity) 0)
    (by rw [List.length_append, List.length_replicate]; exact Nat.le_add_left _ _)
  obtain ⟨ext, henc⟩ := encode_eq_append_of_decode he h
  have hi := (decodedBytesEncodeBack _ _ _ h).1
  exact ⟨ext, i, by rw [← henc, ← List.append_nil (encode i), encodedCommandDecodesToItself i [] hi]⟩

end Sys2Proof
end

section
/-! ### What a byte string retires (30_encoding.md R110, R113, R114) -/

namespace Sys2Proof.Machine

/-! #### One step under the invariant -/

/-- Valid latches do not depend on the position in the stream. -/
theorem LatchesOk.withPos {s : State} (hs : LatchesOk s) (n : Nat) : LatchesOk { s with pos := n } :=
  ⟨hs.op1First, hs.payloadFields, hs.rdataCounts, hs.rdataWritten⟩

/-- From valid latches no byte stops the decoder (30_encoding.md R107). -/
theorem delta_never_stops (b : Byte) {s : State} (hs : LatchesOk s) (hh : s.phase ≠ .halt) :
    ∃ t, delta b s = .next t := by
  rcases byte_retires_or_awaits b hs hh with ⟨i, -, -, hd⟩ | ⟨p, -, -, -, -, hd, -⟩
  · exact ⟨_, hd.trans (exec_eq i _)⟩
  · exact ⟨_, hd⟩

theorem decoderStep_never_stops {s : State} (hs : Inv s) : ∃ t, decoderStep s = .next t := by
  rcases decoderStep_cases s with ⟨-, he⟩ | ⟨hr, b, rest, hb, he⟩ | ⟨-, -, -, he⟩ | ⟨-, -, -, he⟩
  · exact ⟨_, he⟩
  · rw [he]
    exact delta_never_stops b (inv_consume hs hr hb).1.latchesOk (hs.phase_ne_halt hr)
  · exact ⟨_, he⟩
  · exact ⟨_, he⟩

/-- Settles O4: a producer's move always has a next state, and a decoder step has one under the invariant. -/
theorem invariantStatesNeverStop : Obligations.InvariantStatesNeverStop := by
  intro s hs
  rw [step_eq_move]
  by_cases hm : s.turns.headD .decode = .decode
  · rw [hm]
    exact decoderStep_never_stops (hs.withTurns _)
  · exact ⟨_, move_eq_produce hm _⟩

/-- Settles O10: the byte retires a command or only awaits more (`byte_retires_or_awaits`), and `decode` tells which. -/
theorem stepInsideACommandOnlyStoresItsByte : Obligations.StepInsideACommandOnlyStoresItsByte := by
  intro s b rest e hs hturns hr hb hdecode
  rw [step_of_no_turns hturns, decoderStep_byte hr hb]
  have hlatches := (inv_consume hs hr hb).1.latchesOk
  have hbytes : commandBytes (consume s) = commandBytes s := rfl
  rcases byte_retires_or_awaits b hlatches (hs.phase_ne_halt hr) with ⟨i, -, hi, -⟩ | ⟨p, -, hp0, hp, -, hd, hc, -⟩
  · rw [hbytes, hdecode] at hi
    cases hi
  · exact ⟨p, hp0, hp, hd, hc⟩

/-! #### The commands of a string are determined -/

theorem encode_ne_nil (i : Instr) : encode i ≠ [] := by
  cases i <;> simp [encode]

theorem length_le_flatMap_encode (cs : List Instr) : cs.length ≤ (cs.flatMap encode).length := by
  induction cs with
  | nil => exact Nat.le_refl _
  | cons c cs ih =>
    have := List.length_pos_iff.2 (encode_ne_nil c)
    rw [List.flatMap_cons, List.length_append, List.length_cons]
    omega

/-- The decoder reads encoded commands one after the other, up to bytes that are no command yet. -/
theorem decodeCommands_flatMap_encode {cs : List Instr} {rest : List Byte} {e : DecodeReject}
    (hcs : ∀ c ∈ cs, c.wellFormed = true) (hrest : decode rest = .error e) {n : Nat} (hn : cs.length ≤ n) :
    decodeCommands n (cs.flatMap encode ++ rest) = (cs, rest) := by
  induction cs generalizing n with
  | nil =>
    cases n with
    | zero => rfl
    | succ n => simp [decodeCommands, hrest]
  | cons c cs ih =>
    obtain ⟨hc, hcs⟩ := List.forall_mem_cons.1 hcs
    obtain ⟨n, rfl⟩ : ∃ k, n = k + 1 := Nat.exists_eq_add_one.2 (by simp at hn; omega)
    have hn' : cs.length ≤ n := by simpa using hn
    simp only [List.flatMap_cons, List.append_assoc, decodeCommands, encodedCommandDecodesToItself c _ hc, ih hcs hn']

/-- A string has one reading: the encodings of `cs` and then `rest`, no command yet, retire `cs` and leave `rest`. -/
theorem retired_and_residual {bs : List Byte} {cs : List Instr} {rest : List Byte} {e : DecodeReject}
    (hcs : ∀ c ∈ cs, c.wellFormed = true) (hrest : decode rest = .error e) (hbs : bs = cs.flatMap encode ++ rest) :
    retired bs = cs ∧ residual bs = rest := by
  have hn : cs.length ≤ bs.length := by
    have := length_le_flatMap_encode cs
    rw [hbs, List.length_append]
    omega
  have hdecode := decodeCommands_flatMap_encode hcs hrest hn
  rw [← hbs] at hdecode
  exact ⟨congrArg Prod.fst hdecode, congrArg Prod.snd hdecode⟩

/-! #### `delta` over a string -/

/-- The state `t` has the outputs of `s` followed by those of the commands `cs`, in order. -/
structure OutputsOf (cs : List Instr) (s t : State) : Prop where
  ev : t.ev = s.ev ++ cs.flatMap eventsOf
  tx : t.tx = s.tx ++ cs.flatMap replyOf
  unkSeen : t.unkSeen = (s.unkSeen || cs.any isUnknown)

theorem OutputsOf.nil {s t : State} (hev : t.ev = s.ev) (htx : t.tx = s.tx) (hu : t.unkSeen = s.unkSeen) :
    OutputsOf [] s t := ⟨by simp [hev], by simp [htx], by simp [hu]⟩

theorem OutputsOf.append {cs ds : List Instr} {s t u : State} (h : OutputsOf cs s t) (h' : OutputsOf ds t u) :
    OutputsOf (cs ++ ds) s u where
  ev := by rw [h'.ev, h.ev, List.flatMap_append, List.append_assoc]
  tx := by rw [h'.tx, h.tx, List.flatMap_append, List.append_assoc]
  unkSeen := by rw [h'.unkSeen, h.unkSeen, List.any_append, Bool.or_assoc]

/-- Between two bytes: the latches are valid and hold the bytes of a command that is not complete. -/
structure Underway (s : State) : Prop where
  latches : LatchesOk s
  phase : s.phase ≠ .halt
  incomplete : ∃ e, decode (commandBytes s) = .error e

theorem Underway.of_op0 {s : State} (hp : s.phase = .op0) : Underway s :=
  ⟨LatchesOk.of_op0 hp, by simp [hp], .noFirstByte, by simp [commandBytes, hp, decode]⟩

/-- One byte retires at most one command, and what it does not retire stands in the latches. -/
theorem delta_retires (b : Byte) {s : State} (hs : Underway s) :
    ∃ cs t, delta b s = .next t ∧ Underway t ∧ OutputsOf cs s t ∧ (∀ c ∈ cs, c.wellFormed = true) ∧
      commandBytes s ++ [b] = cs.flatMap encode ++ commandBytes t := by
  rcases byte_retires_or_awaits b hs.latches hs.phase with
    ⟨i, hi, hdec, hd⟩ | ⟨p, e, -, hp, he, hd, hc, hl⟩
  · refine ⟨[i], _, hd.trans (exec_eq i _), .of_op0 rfl, ⟨by simp, by simp, by simp⟩, by simpa using hi, ?_⟩
    rw [← (decodedBytesEncodeBack _ _ _ hdec).2]
    simp [commandBytes]
  · exact ⟨[], _, hd, ⟨hl, hp, e, hc ▸ he⟩, .nil (by simp) (by simp) (by simp), by simp, hc.symm⟩

/-- A string retires the commands it completes, whatever the latches already hold of the first one, and leaves the
bytes of an incomplete command in the latches. -/
theorem feed_retires (bs : List Byte) {s : State} (hs : Underway s) :
    ∃ cs t, feed bs s = .next t ∧ Underway t ∧ OutputsOf cs s t ∧ (∀ c ∈ cs, c.wellFormed = true) ∧
      commandBytes s ++ bs = cs.flatMap encode ++ commandBytes t := by
  induction bs generalizing s with
  | nil => exact ⟨[], s, rfl, hs, .nil rfl rfl rfl, by simp, by simp⟩
  | cons b bs ih =>
    obtain ⟨cs, u, hd, hu, hout, hcs, hbytes⟩ :=
      delta_retires b (s := { s with pos := s.pos + 1 }) ⟨hs.latches.withPos _, hs.phase, hs.incomplete⟩
    obtain ⟨ds, t, hf, ht, hout', hds, hbytes'⟩ := ih hu
    have hout : OutputsOf cs s u := ⟨hout.ev, hout.tx, hout.unkSeen⟩
    refine ⟨cs ++ ds, t, by rw [feed, hd]; exact hf, ht, hout.append hout',
      fun c hc => (List.mem_append.1 hc).elim (hcs c) (hds c), ?_⟩
    calc commandBytes s ++ b :: bs
        = (commandBytes s ++ [b]) ++ bs := by simp
      _ = cs.flatMap encode ++ (commandBytes u ++ bs) := by rw [← List.append_assoc, ← hbytes]; rfl
      _ = (cs ++ ds).flatMap encode ++ commandBytes t := by
        rw [hbytes', List.flatMap_append, List.append_assoc]

theorem underway_reset : Underway State.reset := .of_op0 rfl

theorem parse_never_stops (bs : List Byte) : ∃ p, parse bs = .next p := by
  obtain ⟨-, p, hp, -⟩ := feed_retires bs underway_reset
  exact ⟨p, hp⟩

/-- Settles O16: what a string retires (`feed_retires`) is what `decodeCommands` reads from it, because encodings are
read back one by one; a longer string goes on from the state in which the shorter one ends. -/
theorem parseRetiresTheDecodedCommands : Obligations.ParseRetiresTheDecodedCommands := by
  intro bs more
  obtain ⟨cs, p, hp, hu, hout, hcs, hbs⟩ := feed_retires bs underway_reset
  obtain ⟨ds, q, -, hv, -, hds, hmore⟩ := feed_retires more hu
  obtain ⟨e, he⟩ := hu.incomplete
  obtain ⟨e', he'⟩ := hv.incomplete
  have hbs : bs = cs.flatMap encode ++ commandBytes p := hbs
  have hlong : bs ++ more = (cs ++ ds).flatMap encode ++ commandBytes q := by
    rw [List.flatMap_append, List.append_assoc, ← hmore, ← List.append_assoc, ← hbs]
  obtain ⟨hretired, hresidual⟩ := retired_and_residual hcs he hbs
  have hextends := (retired_and_residual (fun c hc => (List.mem_append.1 hc).elim (hcs c) (hds c)) he' hlong).1
  obtain ⟨-, -, -, -, -, hpos, -, -⟩ := feed_frame hp
  rw [hretired, hresidual, hextends]
  exact ⟨p, hp, hbs.symm, hcs, hout.ev, hout.tx, hout.unkSeen, hpos.trans (Nat.zero_add _), rfl,
    List.prefix_append cs ds⟩

/-- Settles O17: `delta` over the longer string is `delta` over the shorter one, continued. -/
theorem longerStreamExtendsTheOutputs : Obligations.LongerStreamExtendsTheOutputs := by
  intro bs more
  obtain ⟨p, hp⟩ := parse_never_stops bs
  obtain ⟨q, hq⟩ := parse_never_stops (bs ++ more)
  have hmore : feed more p = .next q := by
    rw [parse, feed_append, show feed bs State.reset = .next p from hp] at hq
    exact hq
  obtain ⟨-, -, -, -, -, hpos, hev, htx⟩ := feed_frame hmore
  exact ⟨p, q, hp, hq, hmore, hev, htx, hpos⟩

/-! #### Streams of complete commands -/

theorem length_encode {i : Instr} (hi : i.wellFormed = true) : (encode i).length = commandBytesCount i := by
  cases i with
  | raster k mode w h data => exact Laws.EncodeLength.raster k mode w h data hi
  | idle | buzz | pmode | init | feed | charset | reverse | skip2 | codepage | units | cut | cutf | status | unk => rfl

theorem length_flatMap_encode {cs : List Instr} (hcs : ∀ c ∈ cs, c.wellFormed = true) :
    (cs.flatMap encode).length = (cs.map commandBytesCount).sum := by
  rw [List.length_flatMap]
  exact congrArg List.sum (List.map_congr_left fun c hc => length_encode (hcs c hc))

/-- A decoder with no bytes of a command in its latches stands between commands. -/
theorem Underway.op0_of_no_bytes {s : State} (hs : Underway s) (h : commandBytes s = []) : s.phase = .op0 := by
  rw [← phaseAfter_commandBytes hs.latches hs.phase, h]
  rfl

/-- From between commands, the encodings of commands retire those commands and leave nothing over. -/
theorem feed_flatMap_encode {cs : List Instr} {s : State} (hp : s.phase = .op0)
    (hcs : ∀ c ∈ cs, c.wellFormed = true) :
    ∃ t, feed (cs.flatMap encode) s = .next t ∧ t.phase = .op0 ∧ OutputsOf cs s t := by
  obtain ⟨ds, t, hf, ht, hout, hds, hbytes⟩ := feed_retires (cs.flatMap encode) (Underway.of_op0 hp)
  obtain ⟨e, he⟩ := ht.incomplete
  have hs : commandBytes s = [] := by simp [commandBytes, hp]
  rw [hs, List.nil_append] at hbytes
  obtain ⟨hcs', hrest⟩ := retired_and_residual hcs (rest := []) rfl (List.append_nil _).symm
  obtain ⟨hds', hrest'⟩ := retired_and_residual hds he hbytes
  have hsame : ds = cs := hds'.symm.trans hcs'
  exact ⟨t, hf, ht.op0_of_no_bytes (hrest'.symm.trans hrest), hsame ▸ hout⟩

/-- Settles O12: the steps are `delta` over the encodings (`steps_eq_feed`), which retires exactly the commands. -/
theorem streamOfCommandsRetiresThemInOrder : Obligations.StreamOfCommandsRetiresThemInOrder := by
  intro cs s rest hcs hready
  obtain ⟨t, hf, hp, hout⟩ := feed_flatMap_encode (s := { s with buf := rest }) hready.phase hcs
  obtain ⟨hbuf, -, hhalted, -, -, hpos, -, -⟩ := feed_frame hf
  rw [← length_flatMap_encode hcs, steps_eq_feed hready.turn hready.running hready.queue]
  exact ⟨t, hf, hp, hhalted.trans hready.running, hbuf, hpos, hout.ev, hout.tx, hout.unkSeen⟩

end Sys2Proof.Machine
end

section
/-! ### A session that pushes a string and closes (30_encoding.md R113, 60_exceptions.md R228) -/

namespace Sys2Proof.Machine

/-- While the producer has the turns, so many steps are its moves. -/
theorem steps_eq_supply {ms : List Move} (hms : Move.decode ∉ ms) (s : State) (hturns : s.turns = []) :
    steps ms.length { s with turns := ms } = .next (supply ms s) := by
  induction ms generalizing s with
  | nil =>
    have hs : { s with turns := [] } = s := by rw [← hturns]
    exact congrArg Host.Outcome.next hs
  | cons m ms ih =>
    obtain ⟨hm, hms⟩ : m ≠ .decode ∧ Move.decode ∉ ms := by simpa [eq_comm] using hms
    rw [List.length_cons, steps_succ, step_turns_cons, move_eq_produce hm, andThen_next, produce_turns, supply_cons]
    exact ih hms _ ((produce_keeps_turns m s).trans hturns)

/-- Pushing a string on an open stream and closing it leaves the string at the end of the queue. -/
theorem supply_pushes_close (bs : List Byte) {s : State} (hc : s.closed = false) (hw : s.wait = false) :
    supply (bs.map .push ++ [.close]) s = { s with buf := s.buf ++ bs, closed := true } := by
  induction bs generalizing s with
  | nil => simp [produce, close_of_open hc, ← hw]
  | cons b bs ih =>
    have hpush : produce (.push b) s = { s with buf := s.buf ++ [b] } := by
      rw [produce, push_of_open b hc, ← hw]
    simp only [List.map_cons, List.cons_append, supply_cons, hpush]
    rw [ih (s := { s with buf := s.buf ++ [b] }) hc hw]
    simp

/-- `delta` over a string does not look at `CLOSED`. -/
theorem feed_closed {bs : List Byte} {s t : State} (h : feed bs s = .next t) :
    feed bs { s with closed := true } = .next { t with closed := true } := by
  obtain ⟨hbuf, -, hhalted, hturns, hwait, -⟩ := feed_frame h
  have hq := feed_withQueue bs { s with closed := true } s
  rw [h] at hq
  refine hq.trans (congrArg Host.Outcome.next ?_)
  simp only [withQueue]
  rw [← hbuf, ← hhalted, ← hturns, ← hwait]

/-- On a closed stream the decoder consumes what is buffered and then halts. -/
theorem steps_closed {bs : List Byte} {s t : State} (hturns : s.turns = []) (hr : s.halted = false)
    (hc : s.closed = true) (hb : s.buf = bs) (h : feed bs { s with buf := [] } = .next t) :
    steps (bs.length + 1) s = .next { t with halted := true, phase := .halt } := by
  obtain ⟨hbuf, hclosed, hhalted, hturns', -⟩ := feed_frame h
  rw [steps_add, steps_eq_feed (rest := []) hturns hr (by rw [hb, List.append_nil]), h]
  show steps 1 t = _
  rw [steps_succ, step_of_no_turns (hturns'.trans hturns), decoderStep_eos (hhalted.trans hr) hbuf (hclosed.trans hc)]
  rfl

/-- Settles O15: the producer has the first `n + 1` turns (`steps_eq_supply`), the decoder the others (`steps_closed`),
and the bytes do in the closed session what they do in `parse` (`feed_closed`). -/
theorem sessionEndsAsItsParse : Obligations.SessionEndsAsItsParse := by
  intro bs
  obtain ⟨p, hp⟩ := parse_never_stops bs
  have hms : Move.decode ∉ bs.map Move.push ++ [Move.close] := by simp
  have hproducer := steps_eq_supply hms State.reset rfl
  rw [supply_pushes_close bs rfl rfl] at hproducer
  have hlen : (bs.map Move.push ++ [Move.close]).length = bs.length + 1 := by simp
  have hdecoder := steps_closed (s := { State.reset with buf := bs, closed := true }) rfl rfl rfl rfl (feed_closed hp)
  rw [show 2 * bs.length + 2 = (bs.length + 1) + (bs.length + 1) by omega, steps_add, ← hlen, hproducer, hlen]
  exact ⟨p, hp, hdecoder⟩

end Sys2Proof.Machine
end

section
/-! ### A whole command is one call of its handler (30_encoding.md R114, 10_state.md R26) -/

namespace Sys2Proof.Machine

/-! #### `delta` over a string, without the count of its bytes -/

/-- `delta` over a byte sequence that leaves `POS` alone. -/
def deltas (bs : List Byte) (s : State) : Result :=
  match bs with
  | [] => .next s
  | b :: rest => andThen (delta b s) (deltas rest)

theorem deltas_cons (b : Byte) (rest : List Byte) (s : State) :
    deltas (b :: rest) s = andThen (delta b s) (deltas rest) := rfl

theorem deltas_singleton (b : Byte) (s : State) : deltas [b] s = delta b s := by
  rw [deltas_cons]
  cases delta b s <;> rfl

/-- `POS` can be advanced by the whole string at once, since `delta` does not look at it. -/
theorem feed_eq_deltas (bs : List Byte) (s : State) : feed bs s = deltas bs { s with pos := s.pos + bs.length } := by
  induction bs generalizing s with
  | nil => rfl
  | cons b bs ih =>
    have hpos := delta_onlyQueue (g := fun t => { t with pos := s.pos + (bs.length + 1) }) (fun _ _ => rfl) b
      { s with pos := s.pos + 1 }
    calc feed (b :: bs) s
        = andThen (delta b { s with pos := s.pos + 1 }) (feed bs) := by
          rw [feed]
          cases delta b { s with pos := s.pos + 1 } <;> rfl
      _ = andThen (delta b { s with pos := s.pos + 1 })
            (fun t => deltas bs { t with pos := s.pos + (bs.length + 1) }) := andThen_congr fun t h => by
          obtain ⟨-, htpos, -⟩ := delta_frame h
          rw [ih, htpos, Nat.add_assoc, Nat.add_comm 1]
      _ = deltas (b :: bs) { s with pos := s.pos + (b :: bs).length } := by
          rw [List.length_cons, deltas_cons, hpos, andThen_mapNext]

/-! #### The latches and the phase -/

/-- A handler does not look at the phase in which it is called. -/
theorem exec_await (i : Instr) (p : Phase) (s : State) : exec i (await p s) = exec i s := by
  rw [exec_eq, exec_eq]
  rfl

theorem latchField_await (b : Byte) (p : Phase) (s : State) :
    latchField b (await p s) = await p (latchField b s) := by
  unfold latchField await
  dsimp only
  split <;> rfl

theorem latchFields_cons (b : Byte) (bs : List Byte) (s : State) :
    latchFields (b :: bs) s = latchFields bs (latchField b s) := rfl

theorem latchFields_concat (bs : List Byte) (b : Byte) (s : State) :
    latchFields (bs ++ [b]) s = latchField b (latchFields bs s) := by
  simp [latchFields]

theorem latchData_cons (b : Byte) (bs : List Byte) (s : State) :
    latchData (b :: bs) s = latchData bs (latchRaster b s) := rfl

/-- The first field byte goes to `F[0]`, the second to `F[1]`. -/
theorem latchField_first {b : Byte} {s : State} (h : s.nf = 0) :
    (latchField b s).f = s.f.set 0 b ∧ (latchField b s).nf = 1 := by
  simp [latchField, h]

theorem latchField_second {b : Byte} {s : State} (h : s.nf = 1) :
    (latchField b s).f = s.f.set 1 b ∧ (latchField b s).nf = 2 := by
  simp [latchField, h]

/-- Six fields fill `F`, in arrival order. -/
theorem latchFields_six {s : State} (h : s.nf = 0) (a b c d e g : Byte) :
    (latchFields [a, b, c, d, e, g] s).f = #v[a, b, c, d, e, g] := by
  simp only [latchFields, List.foldl_cons, List.foldl_nil, latchField, h]
  ext i hi
  interval_cases i <;> simp

@[simp] theorem opcode_latchFields (bs : List Byte) (s : State) : opcode (latchFields bs s) = opcode s := by
  induction bs generalizing s with
  | nil => rfl
  | cons b bs ih => rw [latchFields_cons, ih, opcode_latchField]

theorem latchFields_nf {bs : List Byte} {s : State} (h : s.nf.val + bs.length ≤ 6) :
    (latchFields bs s).nf.val = s.nf.val + bs.length := by
  induction bs generalizing s with
  | nil => rfl
  | cons b bs ih =>
    rw [List.length_cons] at h
    have hnf := latchField_nf (b := b) (s := s) (by omega)
    rw [latchFields_cons, ih (by omega), hnf, List.length_cons]
    omega

/-! #### Opcode bytes and field bytes -/

/-- The two bytes of a table opcode bring its payload next. -/
theorem deltas_opcode {b0 b1 : Byte} {op : Opcode} {s : State} (hp : s.phase = .op0) (ho : lookup b0 b1 = some op)
    (hi : op ≠ .init) (r : List Byte) :
    deltas (b0 :: b1 :: r) s = deltas r (await .payload (latchSecond b1 (latchFirst b0 s))) := by
  rw [deltas_cons, delta_op0_open hp (not_single_of_lookup ho), andThen_next, deltas_cons,
    delta_op1_payload (s := await .op1 (latchFirst b0 s)) rfl ho hi]
  rfl

/-- A field byte that is not the last one is stored. -/
theorem deltas_field {b : Byte} {op : Opcode} {s : State} (ho : opcode s = some op) (hn : s.nf.val < 6)
    (hm : s.nf.val + 1 ≠ need op (latchField b s).f[0]) (r : List Byte) :
    deltas (b :: r) (await .payload s) = deltas r (await .payload (latchField b s)) := by
  have hd := delta_payload_more (b := b) (s := await .payload s) rfl hn ho (by rw [latchField_await]; exact hm)
  rw [deltas_cons, hd, latchField_await, andThen_next]

/-- The last field byte of a command without raster data runs the handler. -/
theorem deltas_last_field {b : Byte} {op : Opcode} {s : State} (ho : opcode s = some op) (hn : s.nf.val < 6)
    (hr : op ≠ .raster) (hm : s.nf.val + 1 = need op (latchField b s).f[0]) :
    deltas [b] (await .payload s) = exec (operands op [] (latchField b s)) (latchField b s) := by
  have hd := delta_payload_last (b := b) (s := await .payload s) rfl hn ho hr (by rw [latchField_await]; exact hm)
  rw [deltas_singleton, hd, latchField_await, exec_await]
  rfl

/-- The payload of a command with one field byte, from the state that its opcode leaves. -/
theorem deltas_one_field {n : Byte} {op : Opcode} {i : Instr} {s : State} (hn : s.nf = 0) (ho : opcode s = some op)
    (hneed : need op n = 1) (hi : ∀ u : State, u.f[0] = n → operands op [] u = i) :
    deltas [n] (await .payload s) = exec i (latchFields [n] s) := by
  have hr : op ≠ .raster := by rintro rfl; cases hneed
  have hf : (latchField n s).f[0] = n := by simp [latchField_first hn]
  rw [deltas_last_field ho (by simp [hn]) hr (by simp [hf, hneed, hn]), hi _ hf]
  rfl

/-- The payload of a command with two field bytes, likewise. -/
theorem deltas_two_fields {x y : Byte} {op : Opcode} {i : Instr} {s : State} (hn : s.nf = 0)
    (ho : opcode s = some op) (hneed : need op x = 2)
    (hi : ∀ u : State, u.f[0] = x → u.f[1] = y → operands op [] u = i) :
    deltas [x, y] (await .payload s) = exec i (latchFields [x, y] s) := by
  have hr : op ≠ .raster := by rintro rfl; cases hneed
  obtain ⟨hfx, hnx⟩ := latchField_first (b := x) hn
  obtain ⟨hfy, -⟩ := latchField_second (b := y) hnx
  have hx : (latchField x s).f[0] = x := by simp [hfx]
  have hx' : (latchField y (latchField x s)).f[0] = x := by simp [hfy, hfx]
  have hy : (latchField y (latchField x s)).f[1] = y := by simp [hfy]
  rw [deltas_field ho (by simp [hn]) (by simp [hn, hx, hneed]),
    deltas_last_field ((opcode_latchField x s).trans ho) (by simp [hnx]) hr (by simp [hnx, hx', hneed]), hi _ hx' hy]
  rfl

/-! #### The raster header and its data -/

/-- Header bytes of `1D76` before the sixth are stored. -/
theorem deltas_header {bs : List Byte} {s : State} (ho : opcode s = some .raster) (hn : s.nf.val + bs.length < 6)
    (r : List Byte) : deltas (bs ++ r) (await .payload s) = deltas r (await .payload (latchFields bs s)) := by
  induction bs generalizing s with
  | nil => rfl
  | cons b bs ih =>
    rw [List.length_cons] at hn
    have hnf := latchField_nf (b := b) (s := s) (by omega)
    rw [List.cons_append, deltas_field ho (by omega) (by simp only [need]; omega), latchFields_cons]
    exact ih ((opcode_latchField b s).trans ho) (by omega)

/-- The data bytes of an image, of which `vs` are already in, go to `RB`, and the last one runs the handler. -/
theorem deltas_data {vs data : List Byte} {s : State} (hdata : data ≠ [])
    (hvs : s.rb.readRange 0 s.idx.toNat = some vs) (hcnt : s.cnt.toNat = data.length)
    (hsize : s.idx.toNat + data.length = rasterBytes (width s) (height s)) :
    deltas data (await .rdata s) = exec (operands .raster (vs ++ data) s) (latchData data s) := by
  induction data generalizing s vs with
  | nil => exact absurd rfl hdata
  | cons b rest ih =>
    have hi : s.idx.toNat < Config.rbCapacity := by
      have := rasterBytes_le (width s) (height s)
      rw [List.length_cons] at hsize
      rw [Config.rbCapacity]
      omega
    have hrange : (latchRaster b s).rb.readRange 0 (s.idx.toNat + 1) = some (vs ++ [b]) :=
      Memory.readRange_write_end b hvs
    rcases rest with _ | ⟨b', rest⟩
    · have hd : rasterData (latchRaster b s) = some (vs ++ [b]) := by
        rw [← hrange]
        exact congrArg _ hsize.symm
      rw [deltas_singleton, delta_rdata_last (s := await .rdata s) rfl hcnt hi hd]
      exact exec_await _ .rdata (latchRaster b s)
    · have hcnt' := latchRaster_cnt_toNat (b := b) (s := s) (by simp [hcnt])
      have hidx := latchRaster_idx_toNat (b := b) hi
      rw [deltas_cons, delta_rdata_more (s := await .rdata s) rfl (by simp [hcnt]) hi, andThen_next, latchData_cons,
        List.append_cons]
      exact ih (s := latchRaster b s) (by simp) (by rw [hidx, hrange]) (by rw [hcnt', hcnt]; rfl)
        (by rw [hidx, Nat.add_assoc, Nat.add_comm 1]; exact hsize)

/-- The sixth header byte is stored and starts the image. -/
theorem deltas_last_header {b : Byte} {s : State} (ho : opcode s = some .raster) (hn : s.nf.val = 5)
    (r : List Byte) :
    deltas (b :: r) (await .payload s) = andThen (startRaster (await .payload (latchField b s))) (deltas r) := by
  rw [deltas_cons, delta_payload_raster (s := await .payload s) rfl hn ho, latchField_await]

/-- With the six header bytes in, the data bytes that `W*H` asks for complete the image. -/
theorem deltas_image {data : List Byte} {s : State} (hlen : data.length = rasterBytes (width s) (height s)) :
    andThen (startRaster (await .payload s)) (deltas data) =
      exec (operands .raster data s) (latchData data (loadCounters s)) := by
  rcases data with _ | ⟨b, data⟩
  · rw [startRaster_empty (s := await .payload s) hlen.symm,
      show loadCounters (await .payload s) = await .payload (loadCounters s) from rfl, exec_await, exec_eq]
    exact (exec_eq _ _).symm
  · have hz : rasterBytes (width s) (height s) ≠ 0 := by simp [← hlen]
    rw [startRaster_data (s := await .payload s) hz, andThen_next]
    exact deltas_data (s := loadCounters s) (vs := []) (by simp) rfl
      ((loadCounters_cnt_toNat s).trans hlen.symm) ((Nat.zero_add _).trans hlen)

/-- Six header bytes and the data bytes that their `W*H` asks for are one call of the handler. -/
theorem deltas_header_and_data {bs data : List Byte} {b : Byte} {s : State} (hn : s.nf = 0)
    (ho : opcode s = some .raster) (hbs : bs.length = 5)
    (hlen : data.length = rasterBytes (width (latchFields (bs ++ [b]) s)) (height (latchFields (bs ++ [b]) s))) :
    deltas (bs ++ b :: data) (await .payload s) = exec (operands .raster data (latchFields (bs ++ [b]) s))
      (latchData data (loadCounters (latchFields (bs ++ [b]) s))) := by
  have hnf : (latchFields bs s).nf.val = 5 := by rw [latchFields_nf] <;> simp [hn, hbs]
  rw [deltas_header ho (by simp [hn, hbs]), deltas_last_header ((opcode_latchFields bs s).trans ho) hnf,
    ← latchFields_concat, deltas_image hlen]

/-- The image that six header bytes ask for, its dimensions sent low byte first. -/
theorem operands_of_header {k mode : Byte} {w h : Half} {s : State}
    (hf : s.f = #v[k, mode, lowByte w, highByte w, lowByte h, highByte h]) :
    width s = w ∧ height s = h ∧ ∀ data, operands .raster data s = .raster k mode w h data := by
  have hw : width s = w := by simp [width, hf, u16_low_high]
  have hh : height s = h := by simp [height, hf, u16_low_high]
  exact ⟨hw, hh, fun data => by simp [operands, hf, hw, hh]⟩

/-- The payload of a raster command, from the state that its opcode leaves. -/
theorem deltas_raster {k mode : Byte} {w h : Half} {data : List Byte} {s : State} (hn : s.nf = 0)
    (ho : opcode s = some .raster) (hlen : data.length = rasterBytes w h) :
    deltas ([k, mode, lowByte w, highByte w, lowByte h, highByte h] ++ data) (await .payload s) =
      exec (.raster k mode w h data)
        (latchData data (loadCounters (latchFields [k, mode, lowByte w, highByte w, lowByte h, highByte h] s))) := by
  have hf := latchFields_six hn k mode (lowByte w) (highByte w) (lowByte h) (highByte h)
  obtain ⟨hw, hh, hi⟩ := operands_of_header hf
  rw [← hi data]
  exact deltas_header_and_data (bs := [k, mode, lowByte w, highByte w, lowByte h]) (b := highByte h) hn ho rfl
    (hlen.trans (congrArg₂ rasterBytes hw hh).symm)

/-! #### Every command -/

/-- From between commands, the bytes of a well-formed command are one call of its handler, on the state with the
latches of 10_state.md R26 written. -/
theorem deltas_encode {i : Instr} {s : State} (hi : i.wellFormed = true) (hp : s.phase = .op0) :
    deltas (encode i) s = exec i (commandLatches i s) := by
  cases i with
  | idle => exact (deltas_singleton _ _).trans (delta_op0_idle hp)
  | buzz => exact (deltas_singleton _ _).trans (delta_op0_buzz hp)
  | init =>
    rw [encode, deltas_cons, delta_op0_open hp rfl, andThen_next, deltas_singleton,
      delta_op1_init (s := await .op1 (latchFirst 0x1B s)) rfl rfl]
    exact exec_await .init .op1 (latchSecond 0x40 (latchFirst 0x1B s))
  | unk b0 b1 =>
    obtain ⟨hs, hl⟩ : isSingleByte b0 = false ∧ lookup b0 b1 = none := by simpa [Instr.wellFormed] using hi
    rw [encode, deltas_cons, delta_op0_open hp hs, andThen_next, deltas_singleton,
      delta_op1_unknown (s := await .op1 (latchFirst b0 s)) rfl hl]
    exact exec_await (.unk b0 b1) .op1 (latchSecond b1 (latchFirst b0 s))
  | pmode | feed | charset | reverse | codepage | status =>
    exact (deltas_opcode hp rfl (by simp) _).trans
      (deltas_one_field rfl rfl rfl fun u hn => by simp [operands, hn])
  | cut m =>
    have hm : isShortCut m = true := hi
    exact (deltas_opcode hp rfl (by simp) _).trans
      (deltas_one_field rfl rfl (by simp [need, hm]) fun u hn => by simp [operands, hn, hm])
  | skip2 | units =>
    exact (deltas_opcode hp rfl (by simp) _).trans
      (deltas_two_fields rfl rfl rfl fun u hx hy => by simp [operands, hx, hy])
  | cutf m n =>
    have hm : isShortCut m = false := by simpa [Instr.wellFormed] using hi
    exact (deltas_opcode hp rfl (by simp) _).trans
      (deltas_two_fields rfl rfl (by simp [need, hm]) fun u hx hy => by simp [operands, hx, hy, hm])
  | raster k mode w h data =>
    exact (deltas_opcode hp rfl (by simp) _).trans (deltas_raster rfl rfl (by simpa [Instr.wellFormed] using hi))

/-- Settles O11: the steps are `delta` over the encoding (`steps_eq_feed`, `feed_eq_deltas`), which is one call of the
handler (`deltas_encode`); a handler always answers a next state in `OP0`. -/
theorem wholeCommandIsOneHandlerCall : Obligations.WholeCommandIsOneHandlerCall := by
  intro s i rest hi hready
  have hfeed : feed (encode i) { s with buf := rest } =
      exec i (commandLatches i { s with buf := rest, pos := s.pos + commandBytesCount i }) := by
    rw [feed_eq_deltas, length_encode hi]
    exact deltas_encode hi hready.phase
  obtain ⟨hbuf, -, -, -, -, hpos, -⟩ := feed_frame (hfeed.trans (exec_eq i _))
  refine ⟨⟨_, exec_eq i _, rfl, hbuf, hpos.trans (by rw [length_encode hi])⟩, ?_⟩
  rw [← hfeed, ← length_encode hi]
  exact steps_eq_feed hready.turn hready.running hready.queue

end Sys2Proof.Machine
end

section
/-! ### The single-byte commands and the frame of every handler (40_single_byte.md R130 to R132) -/

namespace Sys2Proof.Machine

/-- Settles O26: `exec_eq` gives the next state, which names the fields that may change. -/
theorem handlersChangeOnlyTheOutputs : Obligations.HandlersChangeOnlyTheOutputs :=
  fun i s => ⟨_, exec_eq i s, rfl, rfl⟩

/-! #### Runs of one byte in OP0 -/

theorem exec_idle {s : State} (hp : s.phase = .op0) : exec .idle s = .next s := by
  rw [exec_eq]
  simp [eventsOf, replyOf, isUnknown, ← hp]

theorem exec_buzz (s : State) : exec .buzz s = .next { s with phase := .op0, ev := s.ev ++ [.buzzer] } := by
  rw [exec_eq]
  simp [eventsOf, replyOf, isUnknown]

/-- Written with the empty list of events, in the form that `steps_replicate` takes. -/
theorem delta_idle {s : State} (hp : s.phase = .op0) : delta 0x00 s = .next { s with ev := s.ev ++ [] } := by
  rw [delta_op0_idle hp, exec_idle hp, List.append_nil]

theorem delta_buzz {s : State} (hp : s.phase = .op0) : delta 0x1E s = .next { s with ev := s.ev ++ [.buzzer] } := by
  rw [delta_op0_buzz hp, exec_buzz, ← hp]

/-- A byte that in `OP0` only appends the events `es` does so as often as it stands in the queue. -/
theorem steps_replicate {b : Byte} {es : List Event} {k : Nat} {s : State} {rest : List Byte}
    (hbyte : ∀ u : State, u.phase = .op0 → delta b u = .next { u with ev := u.ev ++ es })
    (hready : Ready s (List.replicate k b) rest) :
    steps k s = .next { s with buf := rest, pos := s.pos + k, ev := s.ev ++ (List.replicate k es).flatten } := by
  induction k generalizing s with
  | zero => simp [steps, ← show s.buf = rest from hready.queue]
  | succ k ih =>
    have hbuf : s.buf = b :: (List.replicate k b ++ rest) := hready.queue
    have hstep : step s = .next { s with buf := List.replicate k b ++ rest, pos := s.pos + 1, ev := s.ev ++ es } := by
      rw [step_of_no_turns hready.turn, decoderStep_byte hready.running hbuf, hbyte (consume s) hready.phase,
        consume_eq hbuf]
    have hnext : Ready { s with buf := List.replicate k b ++ rest, pos := s.pos + 1, ev := s.ev ++ es }
        (List.replicate k b) rest := ⟨hready.phase, hready.running, hready.turn, rfl⟩
    rw [steps_succ, hstep, andThen_next, ih hnext]
    simp [List.replicate_succ, Nat.add_comm, Nat.add_left_comm]

/-- Settles O34: a zero byte appends no event, so neither does a run of them (`steps_replicate`). -/
theorem idleBytesHaveNoEffect : Obligations.IdleBytesHaveNoEffect := by
  intro k s rest hready
  refine ⟨?_, exec_idle hready.phase⟩
  simpa using steps_replicate (fun _ => delta_idle) hready

/-! #### Where a Buzzer comes from -/

/-- A command completed outside `OP0` is an unknown opcode or read from the latches; neither emits a Buzzer. -/
theorem Completes.buzzer_not_mem {b : Byte} {s : State} {i : Instr} (h : Completes b s i) (hp : s.phase ≠ .op0) :
    Event.buzzer ∉ eventsOf i := by
  rcases h with ⟨hp0, _⟩ | ⟨_, _, rfl⟩ | ⟨_, _, op, data, rfl, _⟩
  · exact absurd hp0 hp
  · exact List.not_mem_nil
  · exact buzzer_not_mem_eventsOf_operands op data _

theorem delta_count_buzzer {b : Byte} {s t : State} (hp : s.phase ≠ .op0) (h : delta b s = .next t) :
    t.ev.count .buzzer = s.ev.count .buzzer := by
  rcases delta_outputs h with ⟨hev, _⟩ | ⟨i, hi, hev, _⟩
  · rw [hev]
  · rw [hev, List.count_append, List.count_eq_zero.2 (hi.buzzer_not_mem hp), Nat.add_zero]

theorem decoderStep_count_buzzer {s t : State} (hp : s.phase ≠ .op0) (h : decoderStep s = .next t) :
    t.ev.count .buzzer = s.ev.count .buzzer := by
  rcases decoderStep_cases s with ⟨_, he⟩ | ⟨_, b, rest, _, he⟩ | ⟨_, _, _, he⟩ | ⟨_, _, _, he⟩ <;> rw [he] at h
  · cases h; rfl
  · exact delta_count_buzzer (s := consume s) hp h
  · cases h; rfl
  · cases h; rfl

/-- Settles O35: a byte `1E` in `OP0` appends one event (`steps_replicate`); outside `OP0` the producer leaves EV as it
is, and a decoder step completes no `BUZZ` (`decoderStep_count_buzzer`). -/
theorem buzzEmitsBuzzer : Obligations.BuzzEmitsBuzzer := by
  intro k s rest
  refine ⟨fun hready => ?_, exec_buzz s, fun hp t h => ?_⟩
  · simpa using steps_replicate (fun _ => delta_buzz) hready
  · rcases step_cases h with ⟨b, _, _, rfl⟩ | ⟨_, _, rfl⟩ | ⟨_, hd⟩
    · rw [push_ev]
    · rw [close_ev]
    · exact decoderStep_count_buzzer (s := { s with turns := s.turns.tail }) hp hd

end Sys2Proof.Machine
end

section
/-! ### The two-byte opcodes with a fixed payload (41_fixed_payload.md R141 to R149) -/

namespace Sys2Proof.Machine

/-! #### A command that only emits events: its handler and its steps -/

/-- From every state the handler of `i` completes, appends the events `es` and changes nothing else but PHASE. -/
def Emits (i : Instr) (es : List Event) : Prop :=
  ∀ s, exec i s = .next { s with phase := .op0, ev := s.ev ++ es }

/-- A handler that sends no reply and is not that of an unknown opcode only emits its command's events. -/
theorem emits_eventsOf {i : Instr} (htx : replyOf i = []) (hu : isUnknown i = false) : Emits i (eventsOf i) := by
  intro s
  rw [exec_eq, htx, hu, List.append_nil, Bool.or_false]

@[simp] theorem latchFields_ev (bs : List Byte) (s : State) : (latchFields bs s).ev = s.ev := by
  induction bs generalizing s with
  | nil => rfl
  | cons b bs ih => rw [latchFields_cons, ih, latchField_ev]

/-- Found between commands, a two-byte opcode and its fields take one step per byte, which write the latches and append
the events. -/
theorem Emits.steps_eq {i : Instr} {es : List Event} {b0 b1 : Byte} {fields rest : List Byte} {s : State}
    (he : Emits i es) (hi : i.wellFormed = true) (henc : encode i = b0 :: b1 :: fields)
    (hlatch : ∀ u, commandLatches i u = latchFields fields (latchSecond b1 (latchFirst b0 u)))
    (hready : Ready s (b0 :: b1 :: fields) rest) :
    steps (fields.length + 2) s = .next { latchFields fields (latchSecond b1 (latchFirst b0
      { s with buf := rest, pos := s.pos + (fields.length + 2) })) with phase := s.phase, ev := s.ev ++ es } := by
  have hcount : commandBytesCount i = fields.length + 2 := by rw [← length_encode hi, henc]; rfl
  obtain ⟨-, hsteps⟩ := wholeCommandIsOneHandlerCall s i rest hi (by rwa [henc])
  rw [← hcount, hsteps, hlatch, he, hready.phase, latchFields_ev]
  rfl

/-! #### The commands -/

/-- Settles O36: the five bits of the event are those of `n` (`bit_eq_getLsbD`). -/
theorem pmodeEmitsItsFiveFlags : Obligations.PmodeEmitsItsFiveFlags := by
  intro n s rest
  have he : Emits (.pmode n)
      [.printMode n (n.getLsbD 0) (n.getLsbD 3) (n.getLsbD 4) (n.getLsbD 5) (n.getLsbD 7)] := by
    simpa only [eventsOf, bit_eq_getLsbD] using emits_eventsOf (i := .pmode n) rfl rfl
  exact ⟨he.steps_eq rfl rfl fun _ => rfl, he s⟩

/-- Settles O37: the first byte opens the opcode (`delta_op0_open`); the second one looks it up and, for every opcode
but `INIT`, only waits for the payload (`delta_op1_payload`). -/
theorem initOnlyEmitsItsEvent : Obligations.InitOnlyEmitsItsEvent := by
  intro s rest
  have he : Emits .init [.resetPrinter] := emits_eventsOf rfl rfl
  refine ⟨fun hready => ⟨?_, he.steps_eq rfl rfl (fun _ => rfl) hready⟩, he s,
    fun b op hp hr ht hbuf hlookup hop => ?_⟩
  · have hbuf : s.buf = 0x1B :: 0x40 :: rest := hready.queue
    rw [steps_succ, step_of_no_turns hready.turn, decoderStep_byte hready.running hbuf,
      delta_op0_open (s := consume s) hready.phase rfl, consume_eq hbuf]
    rfl
  · rw [step_of_no_turns ht, decoderStep_byte hr hbuf, delta_op1_payload (s := consume s) hp hlookup hop,
      consume_eq hbuf]
    rfl

/-- Settles O38: the event of each command holds its field bytes, which the handler does not look at. -/
theorem plainCommandsEmitTheirFields : Obligations.PlainCommandsEmitTheirFields := by
  intro n x y s rest
  have hfeed : Emits (.feed n) [.feedPaper n] := emits_eventsOf rfl rfl
  have hcodepage : Emits (.codepage n) [.codePage n] := emits_eventsOf rfl rfl
  have hunits : Emits (.units x y) [.motionUnits x y] := emits_eventsOf rfl rfl
  exact ⟨hfeed.steps_eq rfl rfl fun _ => rfl, hfeed s, hcodepage.steps_eq rfl rfl fun _ => rfl, hcodepage s,
    hunits.steps_eq rfl rfl fun _ => rfl, hunits s⟩

/-- Settles O39: the index has a name below 14 (`charsetLabel_of_lt`) and none from there on (`charsetLabel_of_ge`). -/
theorem charsetMapsItsIndexOrReserves : Obligations.CharsetMapsItsIndexOrReserves := by
  intro n s rest
  have he : Emits (.charset n) [.selectCharset n ((charsetLabel n).getD .reserved)] := emits_eventsOf rfl rfl
  refine ⟨fun h => ?_, fun h => ?_⟩
  · rw [charsetLabel_of_lt (by omega), Option.getD_some] at he
    exact ⟨he.steps_eq rfl rfl fun _ => rfl, he s⟩
  · rw [charsetLabel_of_ge h, Option.getD_none] at he
    exact ⟨he.steps_eq rfl rfl fun _ => rfl, he s⟩

/-- Settles O40: the handler compares the whole byte with zero, which is what `on` says. -/
theorem reverseTestsTheWholeByte : Obligations.ReverseTestsTheWholeByte := by
  intro n s rest on hon
  have htest : (n != 0) = on := by rw [Bool.eq_iff_iff, bne_iff_ne, hon]
  have he : Emits (.reverse n) [.reverseMode on] := htest ▸ emits_eventsOf (i := .reverse n) rfl rfl
  exact ⟨he.steps_eq rfl rfl fun _ => rfl, he s⟩

/-- Settles O41: the command has no event, so EV stays as it is. -/
theorem skipTwoDiscardsItsPayload : Obligations.SkipTwoDiscardsItsPayload := by
  intro a b s rest
  have he : Emits (.skip2 a b) [] := emits_eventsOf rfl rfl
  refine ⟨fun hready => ?_, by simpa using he s⟩
  have hsteps := he.steps_eq rfl rfl (fun _ => rfl) hready
  rw [List.append_nil] at hsteps
  exact hsteps

end Sys2Proof.Machine
end

section
/-! ### The cut command and its two forms (42_cut.md R165 to R167) -/

namespace Sys2Proof.Machine

/-! #### Steps, one after another -/

/-- On its turn a running decoder takes the oldest byte. -/
theorem step_byte {b : Byte} {s : State} {rest : List Byte} (ht : s.turns = []) (hr : s.halted = false)
    (hbuf : s.buf = b :: rest) : step s = delta b { s with buf := rest, pos := s.pos + 1 } := by
  rw [step_of_no_turns ht, decoderStep_byte hr hbuf, consume_eq hbuf]

theorem steps_one (s : State) : steps 1 s = step s := by
  rw [steps]
  cases step s <;> rfl

/-- What is known of the first `k` steps leaves one step to look at. -/
theorem steps_succ_of_steps {k : Nat} {s t : State} (h : steps k s = .next t) : steps (k + 1) s = step t := by
  rw [steps_add, h]
  exact steps_one t

theorem steps_succ_byte {k : Nat} {b : Byte} {s t : State} {rest : List Byte} (h : steps k s = .next t)
    (ht : t.turns = []) (hr : t.halted = false) (hbuf : t.buf = b :: rest) :
    steps (k + 1) s = delta b { t with buf := rest, pos := t.pos + 1 } :=
  (steps_succ_of_steps h).trans (step_byte ht hr hbuf)

theorem steps_succ_eos {k : Nat} {s t : State} (h : steps k s = .next t) (ht : t.turns = []) (hr : t.halted = false)
    (hbuf : t.buf = []) (hc : t.closed = true) :
    steps (k + 1) s = .next { t with halted := true, phase := .halt } :=
  (steps_succ_of_steps h).trans ((step_of_no_turns ht).trans (decoderStep_eos hr hbuf hc))

/-- The two bytes of a table opcode other than `INIT` take one step each and bring the payload next. -/
theorem steps_opcode {b0 b1 : Byte} {op : Opcode} {s : State} {rest : List Byte} (hready : Ready s [b0, b1] rest)
    (ho : lookup b0 b1 = some op) (hi : op ≠ .init) :
    steps 2 s = .next { s with
      buf := rest, pos := s.pos + 2, phase := .payload, b0 := b0, b1 := b1, nf := 0 } :=
  calc steps 2 s
      = feed [b0, b1] { s with buf := rest } := steps_eq_feed hready.turn hready.running hready.queue
    _ = deltas [b0, b1] { s with buf := rest, pos := s.pos + 2 } := feed_eq_deltas _ _
    _ = _ := deltas_opcode (s := { s with buf := rest, pos := s.pos + 2 }) hready.phase ho hi []

/-! #### One byte of the payload -/

theorem latchField_of_nf_zero (b : Byte) {s : State} (h : s.nf = 0) :
    latchField b s = { s with f := s.f.set 0 b, nf := 1 } := by
  simp [latchField, h]

theorem latchField_of_nf_one (b : Byte) {s : State} (h : s.nf = 1) :
    latchField b s = { s with f := s.f.set 1 b, nf := 2 } := by
  simp [latchField, h]

theorem not_isShortCut {m : Byte} (h0 : m ≠ 0) (h1 : m ≠ 1) (h49 : m ≠ 49) : isShortCut m = false := by
  rw [← Bool.not_eq_true, isShortCut_iff]
  exact fun h => h.elim h0 fun h => h.elim h1 h49

theorem emits_cut (m : Byte) : Emits (.cut m) [.partialCut m] := emits_eventsOf rfl rfl

theorem emits_cutf (m n : Byte) : Emits (.cutf m n) [.feedAndCut m n] := emits_eventsOf rfl rfl

/-- An `m` in the set completes the command as the short form. -/
theorem delta_cut_short {m : Byte} {s : State} (hp : s.phase = .payload) (ho : opcode s = some .cut) (hn : s.nf = 0)
    (hm : isShortCut m = true) :
    delta m s = .next { s with phase := .op0, f := s.f.set 0 m, nf := 1, ev := s.ev ++ [.partialCut m] } := by
  have hlatch := latchField_of_nf_zero m hn
  rw [delta_payload_last hp (by simp [hn]) ho (by simp) (by simp [hlatch, need, hn, hm]), hlatch]
  simp [operands, hm, emits_cut m _]

/-- Any other `m` is only stored. -/
theorem delta_cut_long {m : Byte} {s : State} (hp : s.phase = .payload) (ho : opcode s = some .cut) (hn : s.nf = 0)
    (hm : isShortCut m = false) : delta m s = .next { s with f := s.f.set 0 m, nf := 1 } := by
  have hlatch := latchField_of_nf_zero m hn
  rw [delta_payload_more hp (by simp [hn]) ho (by simp [hlatch, need, hn, hm]), hlatch]

/-- With such an `m` in `F[0]`, the byte after it completes the command as the long form. -/
theorem delta_cut_second {m n : Byte} {s : State} (hp : s.phase = .payload) (ho : opcode s = some .cut)
    (hn : s.nf = 1) (hf : s.f[0] = m) (hm : isShortCut m = false) :
    delta n s = .next { s with phase := .op0, f := s.f.set 1 n, nf := 2, ev := s.ev ++ [.feedAndCut m n] } := by
  have hlatch := latchField_of_nf_one n hn
  rw [delta_payload_last hp (by simp [hn]) ho (by simp) (by simp [hlatch, need, hn, hf, hm]), hlatch]
  simp [operands, hf, hm, emits_cutf m n _]

/-- Settles O43: the first byte completes the command (`delta_cut_short`) or is only stored (`delta_cut_long`), and
after a stored one the next byte completes it (`delta_cut_second`). -/
theorem cutLengthFollowsItsFirstByte : Obligations.CutLengthFollowsItsFirstByte := by
  intro s m rest hp hr ht hb0 hb1 hn hbuf
  have ho : opcode s = some .cut := by rw [opcode, hb0, hb1]; rfl
  have hstep := step_byte ht hr hbuf
  refine ⟨fun hm => hstep.trans (delta_cut_short hp ho hn ((isShortCut_iff m).2 hm)), fun h0 h1 h49 => ?_⟩
  have hm := not_isShortCut h0 h1 h49
  have hfirst := hstep.trans (delta_cut_long hp ho hn hm)
  refine ⟨hfirst, fun n rest' hrest => ?_⟩
  rw [steps_succ_byte ((steps_one s).trans hfirst) ht hr hrest]
  exact delta_cut_second hp ho rfl (Vector.getElem_set_self _) hm

/-! #### The whole command -/

/-- After `1D56` and an `m` of the long form the decoder waits for `n`. -/
theorem steps_cut_long {m : Byte} {s : State} {rest : List Byte} (hready : Ready s [0x1D, 0x56, m] rest)
    (h0 : m ≠ 0) (h1 : m ≠ 1) (h49 : m ≠ 49) :
    steps 3 s = .next { s with
      buf := rest, pos := s.pos + 3, phase := .payload, b0 := 0x1D, b1 := 0x56, nf := 1, f := s.f.set 0 m } := by
  have hopcode := steps_opcode (rest := m :: rest) { hready with } rfl (by simp)
  rw [steps_succ_byte hopcode hready.turn hready.running rfl,
    delta_cut_long rfl rfl rfl (not_isShortCut h0 h1 h49)]

/-- Settles O42: the opcode bytes only bring the payload (`steps_opcode`), an `m` of the long form is only stored
(`steps_cut_long`), the whole command appends its handler's event (`Emits.steps_eq`), and a stream that ends after such
an `m` halts (`steps_succ_eos`). -/
theorem cutFormsEmitTheirEvents : Obligations.CutFormsEmitTheirEvents := by
  intro m n s rest
  refine ⟨fun hm => ⟨fun hready => ⟨?_, ?_⟩, emits_cut m s⟩,
    fun h0 h1 h49 => ⟨fun hready => ⟨?_, ?_⟩, fun hready hc => ?_, emits_cutf m n s⟩⟩
  · exact steps_opcode (rest := m :: rest) { hready with } rfl (by simp)
  · exact (emits_cut m).steps_eq ((isShortCut_iff m).2 hm) rfl (fun _ => rfl) hready
  · exact steps_cut_long (rest := n :: rest) { hready with } h0 h1 h49
  · have hwf : (Instr.cutf m n).wellFormed = true := by rw [Instr.wellFormed, not_isShortCut h0 h1 h49]; rfl
    exact (emits_cutf m n).steps_eq hwf rfl (fun _ => rfl) hready
  · exact steps_succ_eos (steps_cut_long hready h0 h1 h49) hready.turn hready.running rfl hc

end Sys2Proof.Machine
end

section
/-! ### The status command and its reply (43_status_reply.md R175 to R177) -/

namespace Sys2Proof.Machine

/-- `exec_eq` for `STATUS n`, with the four flags as the bits of `n` (`bit_eq_getLsbD`). -/
theorem exec_status (n : Byte) (s : State) :
    exec (.status n) s = .next { s with
      phase := .op0,
      ev := s.ev ++ [.statusEnable n (n.getLsbD 0) (n.getLsbD 1) (n.getLsbD 2) (n.getLsbD 3)],
      tx := s.tx ++ [0x14, 0x00, 0x00, 0x00, 0xFF] } := by
  simp only [exec_eq, eventsOf, replyOf, isUnknown, Bool.or_false, bit_eq_getLsbD]

/-- Settles O44: the opcode bytes only bring the payload (`steps_opcode`), so both outputs are made in the third step,
by the one handler call that the whole command is (`wholeCommandIsOneHandlerCall`, `exec_status`). -/
theorem statusEmitsAndAcknowledges : Obligations.StatusEmitsAndAcknowledges := by
  intro n s rest
  refine ⟨fun hready => ⟨?_, ?_⟩, exec_status n s⟩
  · exact steps_opcode (rest := n :: rest) { hready with } rfl (by simp)
  · have hsteps : steps 3 s = exec (.status n) (commandLatches (.status n) { s with buf := rest, pos := s.pos + 3 }) :=
      (wholeCommandIsOneHandlerCall s (.status n) rest rfl hready).2
    rw [hsteps, exec_status, ← hready.phase]
    rfl

end Sys2Proof.Machine
end

section
/-! ### The raster command: its header, its data bytes and its image (44_raster.md R185 to R194) -/

namespace Sys2Proof.Machine

theorem emits_raster (k mode : Byte) (w h : Half) (data : List Byte) :
    Emits (.raster k mode w h data) [.image k mode w h data] := emits_eventsOf rfl rfl

/-! #### The sixth header byte -/

theorem latchField_of_nf_five (b : Byte) {s : State} (h : s.nf = 5) :
    latchField b s = { s with f := s.f.set 5 b, nf := 6 } := by
  simp [latchField, h]

theorem loadCounters_cnt_eq_zero_iff (s : State) :
    (loadCounters s).cnt = 0 ↔ rasterBytes (width s) (height s) = 0 := by
  rw [← loadCounters_cnt_toNat]
  exact BitVec.toNat_inj.symm

/-- The count is the product of the two 16-bit fields of the header, low byte first. -/
theorem loadCounters_cnt_fields (s : State) : (loadCounters s).cnt.toNat =
    (s.f[2].toNat + s.f[3].toNat * 256) * (s.f[4].toNat + s.f[5].toNat * 256) := by
  rw [loadCounters_cnt_toNat, rasterBytes, width, height, u16_toNat, u16_toNat]

/-- With the six header bytes in, the counters are loaded; a count other than zero only waits for the data, a count of
zero completes the image of no bytes. -/
theorem startRaster_eq (s : State) :
    ((loadCounters s).cnt ≠ 0 ∧ startRaster s = .next { loadCounters s with phase := .rdata }) ∨
    ((loadCounters s).cnt = 0 ∧ startRaster s = .next { loadCounters s with
      phase := .op0, ev := s.ev ++ [.image s.f[0] s.f[1] (width s) (height s) []] }) := by
  rw [ne_eq, loadCounters_cnt_eq_zero_iff]
  by_cases hz : rasterBytes (width s) (height s) = 0
  · exact .inr ⟨hz, (startRaster_empty hz).trans (emits_raster _ _ _ _ _ _)⟩
  · exact .inl ⟨hz, startRaster_data hz⟩

/-- Settles O47: the byte is stored as `F[5]` (`latchField_of_nf_five`), and the count loaded from the complete header
(`loadCounters_cnt_fields`) decides whether the image waits for data (`startRaster_eq`). -/
theorem sixthHeaderByteLoadsTheCount : Obligations.SixthHeaderByteLoadsTheCount := by
  intro s b rest hp hr ht hb0 hb1 hn hbuf
  have ho : opcode s = some .raster := by rw [opcode, hb0, hb1]; rfl
  have hstep : step s = startRaster (latchField b (consume s)) :=
    ((step_of_no_turns ht).trans (decoderStep_byte hr hbuf)).trans
      (delta_payload_raster (s := consume s) hp (congrArg Fin.val hn) ho)
  have hfields : latchField b (consume s) = { consume s with f := s.f.set 5 b, nf := 6 } :=
    latchField_of_nf_five b (s := consume s) hn
  have hcnt := loadCounters_cnt_fields (latchField b (consume s))
  have himage := startRaster_eq (latchField b (consume s))
  rw [← hstep, hfields] at himage
  rw [hfields] at hcnt
  have htail : s.buf.tail = rest := congrArg List.tail hbuf
  rcases himage with ⟨hc, hnext⟩ | ⟨hc, hnext⟩
  · exact ⟨_, hnext, rfl, rfl, rfl, htail, rfl, rfl, rfl, rfl, by simpa using hcnt, fun _ => ⟨rfl, rfl⟩,
      fun h => absurd h hc⟩
  · exact ⟨_, hnext, rfl, rfl, rfl, htail, rfl, rfl, rfl, rfl, by simpa using hcnt, fun h => absurd hc h,
      fun _ => ⟨rfl, by simp [width, height]⟩⟩

/-! #### One data byte -/

/-- A data byte is stored as it is; the last one runs the handler on the image that is then in the raster buffer. -/
theorem delta_rdata {b : Byte} {s : State} (hs : LatchesOk s) (hp : s.phase = .rdata) :
    (1 < s.cnt.toNat ∧ delta b s = .next (latchRaster b s)) ∨
    (s.cnt.toNat = 1 ∧ ∃ data, rasterData (latchRaster b s) = some data ∧
      delta b s = .next { latchRaster b s with
        phase := .op0, ev := s.ev ++ [.image s.f[0] s.f[1] (width s) (height s) data] }) := by
  obtain ⟨-, -, hcnt, hsum⟩ := hs.rdataCounts hp
  obtain ⟨vs, hvs⟩ := Option.isSome_iff_exists.1 (hs.rdataWritten hp)
  have hi := hs.idx_lt hp
  rcases hcnt.eq_or_lt with h1 | h1
  · have hdata : rasterData (latchRaster b s) = some (vs ++ [b]) := by
      rw [← Memory.readRange_write_end b hvs, h1, hsum]
      rfl
    exact .inr ⟨h1.symm, _, hdata, (delta_rdata_last hp h1.symm hi hdata).trans (emits_raster _ _ _ _ _ _)⟩
  · exact .inl ⟨h1, delta_rdata_more hp h1 hi⟩

/-- Settles O48: both cases of `delta_rdata` store the byte by `latchRaster`, and the image of the last one is what
the buffer then holds (`Memory.readRange_eq_some_iff`). -/
theorem rasterByteIsStoredNotInterpreted : Obligations.RasterByteIsStoredNotInterpreted := by
  intro s b rest hs hp hr ht hbuf
  have hlatches := (inv_consume hs hr hbuf).1.latchesOk
  have hstep : step s = delta b (consume s) := (step_of_no_turns ht).trans (decoderStep_byte hr hbuf)
  obtain ⟨-, -, hcnt, -⟩ := hs.rdataCounts hp
  have hidx : (latchRaster b (consume s)).idx.toNat = s.idx.toNat + 1 := latchRaster_idx_toNat (hlatches.idx_lt hp)
  have hcnt' : (latchRaster b (consume s)).cnt.toNat + 1 = s.cnt.toNat := by
    rw [latchRaster_cnt_toNat (s := consume s) hcnt]
    exact Nat.sub_add_cancel hcnt
  have hsame : (latchRaster b (consume s)).rb.read s.idx.toNat = some b := Memory.read_write_same ..
  have hother : ∀ j, j ≠ s.idx.toNat → (latchRaster b (consume s)).rb.read j = s.rb.read j :=
    fun _ hj => Memory.read_write_other _ _ hj
  have htail : s.buf.tail = rest := congrArg List.tail hbuf
  rcases delta_rdata (b := b) hlatches hp with ⟨hc, hdelta⟩ | ⟨hc, data, hdata, hdelta⟩
  · exact ⟨_, hstep.trans hdelta, hidx, hcnt', hsame, hother, rfl, htail, rfl, fun _ => ⟨hp, rfl⟩,
      fun h => absurd h (Nat.ne_of_gt hc)⟩
  · obtain ⟨hlen, hread⟩ := Memory.readRange_eq_some_iff.1 hdata
    refine ⟨_, hstep.trans hdelta, hidx, hcnt', hsame, hother, rfl, htail, rfl,
      fun h => absurd hc (Nat.ne_of_gt h), fun _ => ⟨rfl, data, hlen, fun j hj => ?_, rfl⟩⟩
    simpa using hread j (hlen ▸ hj)

/-! #### The whole command -/

theorem latchFields_header {s : State} (h : s.nf = 0) (a b c d e g : Byte) :
    latchFields [a, b, c, d, e, g] s = { s with f := #v[a, b, c, d, e, g], nf := 6 } := by
  rw [← latchFields_six h]
  simp [latchFields, latchField, h]

/-- A whole header loads the latches, the count of its image and the index of its first byte. -/
theorem loadCounters_header {k mode : Byte} {w h : Half} {s : State} (hn : s.nf = 0) :
    loadCounters (latchFields [k, mode, lowByte w, highByte w, lowByte h, highByte h] s) = { s with
      f := #v[k, mode, lowByte w, highByte w, lowByte h, highByte h], nf := 6,
      cnt := BitVec.ofNat 32 (rasterBytes w h), idx := 0 } := by
  rw [latchFields_header hn, loadCounters]
  obtain ⟨hw, hh, -⟩ := operands_of_header (s := { s with
    f := #v[k, mode, lowByte w, highByte w, lowByte h, highByte h], nf := 6 }) rfl
  rw [hw, hh]

/-- Data bytes move the counters and write the raster buffer only. -/
theorem latchData_eq (data : List Byte) (s : State) :
    latchData data s = { s with
      rb := (latchData data s).rb, idx := s.idx + BitVec.ofNat 32 data.length,
      cnt := s.cnt - BitVec.ofNat 32 data.length } := by
  induction data generalizing s with
  | nil => simp [latchData]
  | cons b rest ih =>
    have hidx : s.idx + 1 + BitVec.ofNat 32 rest.length = s.idx + BitVec.ofNat 32 (rest.length + 1) := by
      rw [BitVec.add_assoc, BitVec.add_comm 1, BitVec.ofNat_add]
      rfl
    have hcnt : s.cnt - 1 - BitVec.ofNat 32 rest.length = s.cnt - BitVec.ofNat 32 (rest.length + 1) := by
      rw [sub_sub, BitVec.add_comm 1, BitVec.ofNat_add]
      rfl
    rw [latchData_cons, ih, latchRaster_idx, latchRaster_cnt, hidx, hcnt]
    rfl

theorem latchData_rb_read_outside {data : List Byte} {s : State} {j : Nat}
    (hcap : s.idx.toNat + data.length ≤ Config.rbCapacity)
    (hj : j < s.idx.toNat ∨ s.idx.toNat + data.length ≤ j) :
    (latchData data s).rb.read j = s.rb.read j := by
  induction data generalizing s with
  | nil => rfl
  | cons b rest ih =>
    rw [List.length_cons] at hcap hj
    have hidx := latchRaster_idx_toNat (b := b) (s := s) (by omega)
    rw [latchData_cons, ih (by omega) (by omega), latchRaster_rb, Memory.read_write_other _ _ (by omega)]

/-- Data bytes stand in the raster buffer in arrival order, from `IDX` on. -/
theorem latchData_rb_read {data : List Byte} {s : State} {j : Nat}
    (hcap : s.idx.toNat + data.length ≤ Config.rbCapacity) (hj : j < data.length) :
    (latchData data s).rb.read (s.idx.toNat + j) = data[j]? := by
  induction data generalizing s j with
  | nil => cases hj
  | cons b rest ih =>
    rw [List.length_cons] at hcap hj
    have hidx := latchRaster_idx_toNat (b := b) (s := s) (by omega)
    rw [latchData_cons]
    cases j with
    | zero => rw [latchData_rb_read_outside (by omega) (by omega)]; simp
    | succ j =>
      rw [List.getElem?_cons_succ, ← ih (s := latchRaster b s) (by omega) (by omega), hidx, Nat.add_assoc,
        Nat.add_comm 1]

/-- From `IDX = 0`, with the count loaded, the data bytes of an image fill `RB` from its beginning. -/
theorem latchData_image {data : List Byte} {s : State} (hidx : s.idx = 0) (hcnt : s.cnt = BitVec.ofNat 32 data.length)
    (hcap : data.length ≤ Config.rbCapacity) :
    ∃ m : Memory, latchData data s = { s with cnt := 0, idx := BitVec.ofNat 32 data.length, rb := m } ∧
      (∀ j, j < data.length → m.read j = data[j]?) ∧ (∀ j, data.length ≤ j → m.read j = s.rb.read j) := by
  have hidx0 : s.idx.toNat = 0 := by rw [hidx]; rfl
  have heq := latchData_eq data s
  rw [hidx, hcnt, zero_add, sub_self] at heq
  refine ⟨(latchData data s).rb, heq, fun j hj => ?_, fun j hj => ?_⟩
  · rw [← latchData_rb_read (s := s) (by omega) hj, hidx0, Nat.zero_add]
  · exact latchData_rb_read_outside (by omega) (by omega)

/-- A whole image leaves its fields in the latches, its data in `RB[0..W*H-1]` and every other cell as it was. -/
theorem commandLatches_raster {k mode : Byte} {w h : Half} {data : List Byte} (s : State)
    (hlen : data.length = rasterBytes w h) :
    ∃ m : Memory, commandLatches (.raster k mode w h data) s = { s with
        b0 := 0x1D, b1 := 0x76, f := #v[k, mode, lowByte w, highByte w, lowByte h, highByte h], nf := 6,
        cnt := 0, idx := BitVec.ofNat 32 data.length, rb := m } ∧
      (∀ j, j < data.length → m.read j = data[j]?) ∧ (∀ j, data.length ≤ j → m.read j = s.rb.read j) := by
  have hcap : data.length ≤ Config.rbCapacity := hlen.trans_le (rasterBytes_le w h)
  rw [commandLatches, loadCounters_header rfl, ← hlen]
  exact latchData_image rfl rfl hcap

/-- Settles O49: the whole command is one call of its handler (`wholeCommandIsOneHandlerCall`), on the state in which
its fields are latched and its data stands in the raster buffer (`commandLatches_raster`). -/
theorem rasterCommandEmitsItsImage : Obligations.RasterCommandEmitsItsImage := by
  intro k mode w h data rest s hlen hready
  have hemits := emits_raster k mode w h data
  have hwf : (Instr.raster k mode w h data).wellFormed = true := beq_iff_eq.2 hlen
  obtain ⟨-, hsteps⟩ := wholeCommandIsOneHandlerCall s (.raster k mode w h data) rest hwf hready
  obtain ⟨m, hlatches, hin, hout⟩ := commandLatches_raster (k := k) (mode := mode)
    { s with buf := rest, pos := s.pos + (8 + rasterBytes w h) } hlen
  have hidx : (BitVec.ofNat 32 data.length).toNat = w.toNat * h.toNat := by
    rw [hlen]
    exact Nat.mod_eq_of_lt ((rasterBytes_le w h).trans_lt (by decide))
  refine ⟨by rw [hemits, hready.phase.symm], _,
    (hsteps.trans (congrArg _ hlatches)).trans (hemits _), ?_, rfl, rfl, rfl, rfl, rfl, hidx, hin, hout⟩
  rw [← hready.phase]
  rfl

end Sys2Proof.Machine
end

section
/-! ### The raster bit-unpacker (44_raster.md R195 to R197) -/

namespace Sys2Proof.Machine

theorem length_unpack (b : Byte) : (unpack b).length = 8 := rfl

theorem getElem?_unpack (b : Byte) {c : Nat} (hc : c < 8) : (unpack b)[c]? = some (bit b (7 - c)) := by
  interval_cases c <;> rfl

/-- Settles O50: the `j`-th pixel is bit `7 - j` (`getElem?_unpack`). -/
theorem unpackIsMostSignificantBitFirst : Obligations.UnpackIsMostSignificantBitFirst :=
  ⟨fun b => ⟨length_unpack b, fun _ hj => by rw [getElem?_unpack b hj, bit_eq_getLsbD]⟩, by decide⟩

/-- Every row of an image lies within its data. -/
theorem row_end_le {w h : Half} {data : List Byte} {y : Nat} (hlen : data.length = w.toNat * h.toNat)
    (hy : y < h.toNat) : y * w.toNat + w.toNat ≤ data.length := by
  rw [← Nat.succ_mul, hlen, Nat.mul_comm w.toNat]
  exact Nat.mul_le_mul_right _ hy

/-- Settles O51: column `x*8 + (7-k)` falls in byte `x` of its row, at bit `k`. -/
theorem pixelIsOneBitOfItsByte : Obligations.PixelIsOneBitOfItsByte := by
  intro w h data y x k hlen hy hx hk
  have hidx : y * w.toNat + x < data.length := (Nat.add_lt_add_left hx _).trans_le (row_end_le hlen hy)
  refine ⟨data[y * w.toNat + x], List.getElem?_eq_getElem hidx, ?_⟩
  have hbyte : (x * 8 + (7 - k)) / 8 = x := by omega
  have hbit : 7 - (x * 8 + (7 - k)) % 8 = k := by omega
  rw [pixel, if_pos ⟨hy, by omega⟩, hbyte, hbit, List.getElem?_eq_getElem hidx, Option.map_some, bit_eq_getLsbD]

theorem length_flatMap_unpack (bs : List Byte) : (bs.flatMap unpack).length = 8 * bs.length := by
  simp [List.length_flatMap, length_unpack, Nat.mul_comm]

/-- Pixel `c` of a run of unpacked bytes is bit `7 - c % 8` of byte `c / 8`. -/
theorem getElem?_flatMap_unpack (bs : List Byte) (c : Nat) :
    (bs.flatMap unpack)[c]? = bs[c / 8]?.map fun b => bit b (7 - c % 8) := by
  induction bs generalizing c with
  | nil => simp
  | cons b bs ih =>
    rw [List.flatMap_cons]
    rcases Nat.lt_or_ge c 8 with hc | hc
    · rw [List.getElem?_append_left hc, getElem?_unpack b hc, Nat.div_eq_of_lt hc, Nat.mod_eq_of_lt hc]
      rfl
    · obtain ⟨c, rfl⟩ := Nat.exists_eq_add_of_le' hc
      rw [List.getElem?_append_right hc, length_unpack, Nat.add_sub_cancel, ih, Nat.add_div_right c (by decide),
        Nat.add_mod_right, List.getElem?_cons_succ]

/-- The first `n` rows, joined, are the first `n * W` bytes, unpacked. -/
theorem flatten_imageRow (w : Half) (data : List Byte) (n : Nat) :
    ((List.range n).map (imageRow w data)).flatten = (data.take (n * w.toNat)).flatMap unpack := by
  induction n with
  | zero => simp
  | succ n ih =>
    rw [List.range_succ, List.map_append, List.flatten_append, ih, Nat.succ_mul, List.take_add, List.flatMap_append]
    simp [imageRow]

theorem length_imageRow {w : Half} {data : List Byte} {y : Nat} (h : y * w.toNat + w.toNat ≤ data.length) :
    (imageRow w data y).length = 8 * w.toNat := by
  rw [imageRow, length_flatMap_unpack, List.length_take, List.length_drop, Nat.min_eq_left (by omega)]

/-- Settles O52: joined, the rows are all the data unpacked (`flatten_imageRow`), and pixel `c` of row `y` is read from
byte `c / 8` of that row (`getElem?_flatMap_unpack`). -/
theorem rowsAndPixelsAgree : Obligations.RowsAndPixelsAgree := by
  intro w h data hlen
  refine ⟨by simp [imageRows], ?_, fun y hy => ⟨imageRow w data y, by simp [imageRows, hy], ?_, fun c hc => ?_⟩⟩
  · rw [imageRows, flatten_imageRow, Nat.mul_comm, ← hlen, List.take_length]
  · exact length_imageRow (row_end_le hlen hy)
  · rw [imageRow, getElem?_flatMap_unpack, pixel, if_pos ⟨hy, hc⟩, List.getElem?_take_of_lt (by omega),
      List.getElem?_drop]

end Sys2Proof.Machine
end

section
/-! ### The unknown two-byte opcodes (45_unknown_opcode.md R211) -/

namespace Sys2Proof.Machine

/-- `exec_eq` for `UNK b0 b1`, which has neither event nor reply. -/
theorem exec_unk (b0 b1 : Byte) (s : State) :
    exec (.unk b0 b1) s = .next { s with phase := .op0, unkSeen := true } := by
  simp only [exec_eq, eventsOf, replyOf, isUnknown, List.append_nil, Bool.or_true]

/-- Settles O45: an unknown pair is a whole command (R99), so its two steps are one call of its handler
(`wholeCommandIsOneHandlerCall`, `exec_unk`) on the state that latches the pair. -/
theorem unknownPairSetsOnlyItsBit : Obligations.UnknownPairSetsOnlyItsBit := by
  intro b0 b1 s rest h0 h1 hlookup
  refine ⟨fun hready => ?_, exec_unk b0 b1 s⟩
  have hwf : (Instr.unk b0 b1).wellFormed = true := by simp [Instr.wellFormed, not_isSingleByte h0 h1, hlookup]
  have hsteps : steps 2 s =
      exec (.unk b0 b1) (commandLatches (.unk b0 b1) { s with buf := rest, pos := s.pos + 2 }) :=
    (wholeCommandIsOneHandlerCall s (.unk b0 b1) rest hwf hready).2
  rw [hsteps, exec_unk, ← hready.phase]
  rfl

end Sys2Proof.Machine
end

section
/-! ### The end of the stream (60_exceptions.md R228, R230, R233) -/

namespace Sys2Proof.Machine

/-- Settles O32: the first step finds the end of the stream (`decoderStep_eos`), every later one a halted decoder. -/
theorem endOfStreamHaltsForGood : Obligations.EndOfStreamHaltsForGood := by
  intro n s hr hb hc hturns
  rw [steps_succ, step_of_no_turns hturns, decoderStep_eos hr hb hc, andThen_next]
  exact steps_of_rest (s := { s with halted := true, phase := .halt }) hturns (decoderStep_halted rfl) n

/-- Valid latches hold the bytes of a command that is not complete (10_state.md R23). -/
theorem LatchesOk.underway {s : State} (hs : LatchesOk s) (hh : s.phase ≠ .halt) : Underway s := by
  refine ⟨hs, hh, ?_⟩
  cases hp : s.phase with
  | op0 => exact (Underway.of_op0 hp).incomplete
  | op1 =>
    simp only [commandBytes, hp]
    exact ⟨_, decode_first (hs.op1First hp)⟩
  | payload =>
    obtain ⟨op, ho, hn⟩ := hs.payloadFields hp
    simp only [commandBytes, hp]
    exact ⟨_, (decode_table _ ho).trans (decodePayload_short hn)⟩
  | rdata =>
    obtain ⟨ho, -, hcnt, hsum⟩ := hs.rdataCounts hp
    obtain ⟨vs, hvs⟩ := Option.isSome_iff_exists.1 (hs.rdataWritten hp)
    have hlen : vs.length = s.idx.toNat := (Memory.readRange_eq_some_iff.1 hvs).1
    simp only [commandBytes, hp, hvs, Option.getD_some]
    exact ⟨_, (decode_table _ ho).trans (decodePayload_raster_short (by omega))⟩
  | halt => exact absurd hp hh

/-- On a closed stream the running decoder retires the commands that its latches and the buffered bytes complete, and
halts with the bytes of an incomplete one left over. -/
theorem steps_closed_retires {s : State} (hs : Inv s) (hr : s.halted = false) (hc : s.closed = true)
    (hturns : s.turns = []) :
    ∃ cs t, steps (s.buf.length + 1) s = .next { t with halted := true, phase := .halt } ∧
      t.buf = [] ∧ t.pos = s.pos + s.buf.length ∧ Underway t ∧ OutputsOf cs s t ∧
      (∀ c ∈ cs, c.wellFormed = true) ∧ commandBytes s ++ s.buf = cs.flatMap encode ++ commandBytes t := by
  have hlatches : LatchesOk { s with buf := [] } :=
    ⟨hs.op1First, hs.payloadFields, hs.rdataCounts, hs.rdataWritten⟩
  obtain ⟨cs, t, hf, ht, hout, hcs, hbytes⟩ := feed_retires s.buf (hlatches.underway (hs.phase_ne_halt hr))
  obtain ⟨hbuf, -, -, -, -, hpos, -, -⟩ := feed_frame hf
  exact ⟨cs, t, steps_closed hturns hr hc rfl hf, hbuf, hpos, ht, ⟨hout.ev, hout.tx, hout.unkSeen⟩, hcs, hbytes⟩

/-- Settles O18: a running decoder consumes what is buffered and halts (`steps_closed_retires`); a halted one has an
empty queue and stays as it is. -/
theorem closedStreamHaltsTheDecoder : Obligations.ClosedStreamHaltsTheDecoder := by
  intro s hs hturns hc
  cases hr : s.halted with
  | false =>
    obtain ⟨-, t, hsteps, hbuf, hpos, -⟩ := steps_closed_retires hs hr hc hturns
    exact ⟨_, hsteps, rfl, rfl, hbuf, hpos⟩
  | true =>
    obtain ⟨-, hb⟩ := hs.haltQueue hr
    exact ⟨s, steps_of_rest hturns (decoderStep_halted hr) _, hr, hs.haltPhase.1 hr, hb, by simp [hb]⟩

/-- Settles O21: the bytes retire some commands and leave a rest (`steps_closed_retires`); a string has one reading
(`retired_and_residual`), and this one is read as no command, so none is retired. -/
theorem abandonedCommandHasNoEffect : Obligations.AbandonedCommandHasNoEffect := by
  intro s e hs hr hc hturns hdecode
  obtain ⟨cs, t, hsteps, -, hpos, ht, hout, hcs, hbytes⟩ := steps_closed_retires hs hr hc hturns
  obtain ⟨e', he'⟩ := ht.incomplete
  have hnone : retired (commandBytes s ++ s.buf) = [] := (retired_and_residual (cs := []) (by simp) hdecode rfl).1
  obtain rfl : cs = [] := (retired_and_residual hcs he' hbytes).1.symm.trans hnone
  refine ⟨_, hsteps, rfl, ?_, ?_, ?_, hpos⟩
  · simpa using hout.ev
  · simpa using hout.tx
  · simpa using hout.unkSeen

end Sys2Proof.Machine
end
